-- ==== Sys2Proof/Word.lean ====
section
/-! DEFINITION. The word types of the core: bytes, 16-bit words, 12-bit addresses, register and key indices. -/
namespace Sys2Proof

/-- An 8-bit value: a general register, a timer, a memory byte (R9, R21). -/
abbrev Byte := BitVec 8

/-- A 16-bit value: PC, I, a stack slot, an instruction word (R9, R10). -/
abbrev Word := BitVec 16

/-- The 12-bit field `nnn` (R91). -/
abbrev Addr12 := BitVec 12

/-- The 4-bit field `n`: a sprite height or a sub-opcode selector (R91). -/
abbrev Nibble := BitVec 4

/-- The index of a general register, V0 to VF (R21, R23). -/
abbrev Reg := Fin 16

/-- A key code, 0 to 15 (R41, R280). -/
abbrev Key := Fin 16

end Sys2Proof
end

