-- ==== Sys2Proof/Syntax.lean ====
section
/-! DEFINITION. The instructions: one constructor for each row of spec/opcode_table.json, in the table's order
(R100): the 34 instructions and the six fallback rows of the no-op words (R102). -/
namespace Sys2Proof

/-- A decoded instruction. Every bit of the instruction word that is not fixed by the row is a field here,
also a field that the instruction does not read (`y` of 8xy6 and 8xyE, R95; the fields of a no-op word). -/
inductive Instr where
  /-- 00E0, R251 -/
  | cls
  /-- 00EE, R150 -/
  | ret
  /-- 1nnn, R151 -/
  | jp (nnn : Addr12)
  /-- 2nnn, R152 -/
  | call (nnn : Addr12)
  /-- 3xkk, R154 -/
  | seImm (x : Reg) (kk : Byte)
  /-- 4xkk, R155 -/
  | sneImm (x : Reg) (kk : Byte)
  /-- 5xy0, R156 -/
  | seReg (x y : Reg)
  /-- 6xkk, R181 -/
  | ldImm (x : Reg) (kk : Byte)
  /-- 7xkk, R182 -/
  | addImm (x : Reg) (kk : Byte)
  /-- 8xy0, R183 -/
  | ldReg (x y : Reg)
  /-- 8xy1, R184 -/
  | orReg (x y : Reg)
  /-- 8xy2, R185 -/
  | andReg (x y : Reg)
  /-- 8xy3, R186 -/
  | xorReg (x y : Reg)
  /-- 8xy4, R187 -/
  | addReg (x y : Reg)
  /-- 8xy5, R188 -/
  | sub (x y : Reg)
  /-- 8xy6, R189 -/
  | shr (x y : Reg)
  /-- 8xy7, R190 -/
  | subn (x y : Reg)
  /-- 8xyE, R191 -/
  | shl (x y : Reg)
  /-- 9xy0, R157 -/
  | sneReg (x y : Reg)
  /-- Annn, R220 -/
  | ldI (nnn : Addr12)
  /-- Bnnn, R153 -/
  | jpV0 (nnn : Addr12)
  /-- Cxkk, R192 -/
  | rnd (x : Reg) (kk : Byte)
  /-- Dxyn, R252 -/
  | drw (x y : Reg) (n : Nibble)
  /-- Ex9E, R270 -/
  | skp (x : Reg)
  /-- ExA1, R271 -/
  | sknp (x : Reg)
  /-- Fx07, R272 -/
  | ldVxDt (x : Reg)
  /-- Fx0A, R275 -/
  | ldVxK (x : Reg)
  /-- Fx15, R273 -/
  | ldDt (x : Reg)
  /-- Fx18, R274 -/
  | ldSt (x : Reg)
  /-- Fx1E, R221 -/
  | addI (x : Reg)
  /-- Fx29, R222 -/
  | ldF (x : Reg)
  /-- Fx33, R223 -/
  | ldB (x : Reg)
  /-- Fx55, R224 -/
  | ldMemVx (x : Reg)
  /-- Fx65, R225 -/
  | ldVxMem (x : Reg)
  /-- 0nnn other than 00E0 and 00EE, R102 and R125 -/
  | nop0 (nnn : Addr12)
  /-- 5xyn with n different from 0, R102 and R125 -/
  | nop5 (x y : Reg) (n : Nibble)
  /-- 8xyn with n one of 8, 9, A, B, C, D, F, R102 and R125 -/
  | nop8 (x y : Reg) (n : Nibble)
  /-- 9xyn with n different from 0, R102 and R125 -/
  | nop9 (x y : Reg) (n : Nibble)
  /-- Exkk with kk neither 9E nor A1, R102 and R125 -/
  | nopE (x : Reg) (kk : Byte)
  /-- Fxkk with kk none of 07, 0A, 15, 18, 1E, 29, 33, 55, 65, R102 and R125 -/
  | nopF (x : Reg) (kk : Byte)
deriving DecidableEq, Repr

end Sys2Proof
end

