-- ==== Sys2Proof/WellFormed.lean ====
section
/-! DEFINITION. Which instruction terms stand for a word of their own row. The fields of the 34 instructions
cannot leave their range (their types are as wide as the encoding's fields, R91); a no-op term is well formed when its
selecting field is none of the values that R100 lists for its family (R102). -/
namespace Sys2Proof

/-- The selecting values of `n` that family 8 lists (R100). -/
def listedN8 : List Nibble := [0x0, 0x1, 0x2, 0x3, 0x4, 0x5, 0x6, 0x7, 0xE]

/-- The selecting values of `kk` that family E lists (R100). -/
def listedKkE : List Byte := [0x9E, 0xA1]

/-- The selecting values of `kk` that family F lists (R100). -/
def listedKkF : List Byte := [0x07, 0x0A, 0x15, 0x18, 0x1E, 0x29, 0x33, 0x55, 0x65]

/-- A term is well formed when it is the decoding of some word: a no-op term must not hold the selecting
value of a listed instruction (R101, R102). -/
def Instr.wellFormed : Instr → Bool
  | .nop0 nnn => nnn != 0x0E0#12 && nnn != 0x0EE#12
  | .nop5 _ _ n => n != 0x0#4
  | .nop8 _ _ n => !listedN8.contains n
  | .nop9 _ _ n => n != 0x0#4
  | .nopE _ kk => !listedKkE.contains kk
  | .nopF _ kk => !listedKkF.contains kk
  | .cls => true
  | .ret => true
  | .jp _ => true
  | .call _ => true
  | .seImm _ _ => true
  | .sneImm _ _ => true
  | .seReg _ _ => true
  | .ldImm _ _ => true
  | .addImm _ _ => true
  | .ldReg _ _ => true
  | .orReg _ _ => true
  | .andReg _ _ => true
  | .xorReg _ _ => true
  | .addReg _ _ => true
  | .sub _ _ => true
  | .shr _ _ => true
  | .subn _ _ => true
  | .shl _ _ => true
  | .sneReg _ _ => true
  | .ldI _ => true
  | .jpV0 _ => true
  | .rnd _ _ => true
  | .drw _ _ _ => true
  | .skp _ => true
  | .sknp _ => true
  | .ldVxDt _ => true
  | .ldVxK _ => true
  | .ldDt _ => true
  | .ldSt _ => true
  | .addI _ => true
  | .ldF _ => true
  | .ldB _ => true
  | .ldMemVx _ => true
  | .ldVxMem _ => true

end Sys2Proof
end

