-- ==== Sys2Proof/Decode.lean ====
section
/-! DEFINITION. The decoder (R91, R92, R100, R101), total on any bytes, and the encoder, each written from the
spec's encoding tables. A word is never refused (R128); only fewer than two bytes are. -/
namespace Sys2Proof

/-- `family`, w[15:12] (R91). -/
def fieldFamily (w : Word) : Nibble := w.extractLsb' 12 4

/-- `x`, w[11:8], as a register index (R91, R94). -/
def fieldX (w : Word) : Reg := (w.extractLsb' 8 4).toFin

/-- `y`, w[7:4], as a register index (R91, R94). -/
def fieldY (w : Word) : Reg := (w.extractLsb' 4 4).toFin

/-- `kk`, w[7:0] (R91). -/
def fieldKk (w : Word) : Byte := w.extractLsb' 0 8

/-- `n`, w[3:0] (R91). -/
def fieldN (w : Word) : Nibble := w.extractLsb' 0 4

/-- `nnn`, w[11:0] (R91). -/
def fieldNnn (w : Word) : Addr12 := w.extractLsb' 0 12

/-- Family 0 compares the whole word (R100). -/
def decodeFamily0 (w : Word) : Instr :=
  if w = 0x00E0#16 then .cls
  else if w = 0x00EE#16 then .ret
  else .nop0 (fieldNnn w)

/-- Family 5 compares `n` (R100). -/
def decodeFamily5 (w : Word) : Instr :=
  if fieldN w = 0x0#4 then .seReg (fieldX w) (fieldY w)
  else .nop5 (fieldX w) (fieldY w) (fieldN w)

/-- Family 8 compares `n` (R100). -/
def decodeFamily8 (w : Word) : Instr :=
  if fieldN w = 0x0#4 then .ldReg (fieldX w) (fieldY w)
  else if fieldN w = 0x1#4 then .orReg (fieldX w) (fieldY w)
  else if fieldN w = 0x2#4 then .andReg (fieldX w) (fieldY w)
  else if fieldN w = 0x3#4 then .xorReg (fieldX w) (fieldY w)
  else if fieldN w = 0x4#4 then .addReg (fieldX w) (fieldY w)
  else if fieldN w = 0x5#4 then .sub (fieldX w) (fieldY w)
  else if fieldN w = 0x6#4 then .shr (fieldX w) (fieldY w)
  else if fieldN w = 0x7#4 then .subn (fieldX w) (fieldY w)
  else if fieldN w = 0xE#4 then .shl (fieldX w) (fieldY w)
  else .nop8 (fieldX w) (fieldY w) (fieldN w)

/-- Family 9 compares `n` (R100). -/
def decodeFamily9 (w : Word) : Instr :=
  if fieldN w = 0x0#4 then .sneReg (fieldX w) (fieldY w)
  else .nop9 (fieldX w) (fieldY w) (fieldN w)

/-- Family E compares `kk` (R100). -/
def decodeFamilyE (w : Word) : Instr :=
  if fieldKk w = 0x9E#8 then .skp (fieldX w)
  else if fieldKk w = 0xA1#8 then .sknp (fieldX w)
  else .nopE (fieldX w) (fieldKk w)

/-- Family F compares `kk` (R100). -/
def decodeFamilyF (w : Word) : Instr :=
  if fieldKk w = 0x07#8 then .ldVxDt (fieldX w)
  else if fieldKk w = 0x0A#8 then .ldVxK (fieldX w)
  else if fieldKk w = 0x15#8 then .ldDt (fieldX w)
  else if fieldKk w = 0x18#8 then .ldSt (fieldX w)
  else if fieldKk w = 0x1E#8 then .addI (fieldX w)
  else if fieldKk w = 0x29#8 then .ldF (fieldX w)
  else if fieldKk w = 0x33#8 then .ldB (fieldX w)
  else if fieldKk w = 0x55#8 then .ldMemVx (fieldX w)
  else if fieldKk w = 0x65#8 then .ldVxMem (fieldX w)
  else .nopF (fieldX w) (fieldKk w)

/-- The decoding of one instruction word: the family selects the group (R101); a word of the group that no
listed instruction matches is a no-op (R102). No word is refused (R128). -/
def decodeWord (w : Word) : Instr :=
  if fieldFamily w = 0x0#4 then decodeFamily0 w
  else if fieldFamily w = 0x1#4 then .jp (fieldNnn w)
  else if fieldFamily w = 0x2#4 then .call (fieldNnn w)
  else if fieldFamily w = 0x3#4 then .seImm (fieldX w) (fieldKk w)
  else if fieldFamily w = 0x4#4 then .sneImm (fieldX w) (fieldKk w)
  else if fieldFamily w = 0x5#4 then decodeFamily5 w
  else if fieldFamily w = 0x6#4 then .ldImm (fieldX w) (fieldKk w)
  else if fieldFamily w = 0x7#4 then .addImm (fieldX w) (fieldKk w)
  else if fieldFamily w = 0x8#4 then decodeFamily8 w
  else if fieldFamily w = 0x9#4 then decodeFamily9 w
  else if fieldFamily w = 0xA#4 then .ldI (fieldNnn w)
  else if fieldFamily w = 0xB#4 then .jpV0 (fieldNnn w)
  else if fieldFamily w = 0xC#4 then .rnd (fieldX w) (fieldKk w)
  else if fieldFamily w = 0xD#4 then .drw (fieldX w) (fieldY w) (fieldN w)
  else if fieldFamily w = 0xE#4 then decodeFamilyE w
  else decodeFamilyF w

/-- Why the byte decoder rejects its input. -/
inductive DecodeError where
  /-- Fewer than two bytes: no instruction word can be formed (R90). -/
  | truncated
deriving DecidableEq, Repr

/-- The word of two bytes, the first in bits 15 to 8 (R66). -/
def wordOfBytes (hi lo : Byte) : Word := hi ++ lo

/-- Decoding a byte sequence: exactly two bytes are consumed (R90) and the rest is handed back. -/
def decode : List Byte → Except DecodeError (Instr × List Byte)
  | hi :: lo :: rest => .ok (decodeWord (wordOfBytes hi lo), rest)
  | _ => .error .truncated

/-- A register index as the 4-bit field that names it (R91). -/
def regField (x : Reg) : Nibble := BitVec.ofFin x

/-- Format F-NNN (R93). -/
def encodeNnn (family : Nibble) (nnn : Addr12) : Word := family ++ nnn

/-- Formats F-XKK and F-XS (R93). -/
def encodeXkk (family : Nibble) (x : Reg) (kk : Byte) : Word := family ++ (regField x ++ kk : Addr12)

/-- Formats F-XYS and F-XYN (R93). -/
def encodeXyn (family : Nibble) (x y : Reg) (n : Nibble) : Word :=
  family ++ (regField x ++ (regField y ++ n : Byte) : Addr12)

/-- The word of an instruction, from the encodings of spec/opcode_table.json and R93. -/
def encodeWord : Instr → Word
  | .cls => 0x00E0#16
  | .ret => 0x00EE#16
  | .jp nnn => encodeNnn 0x1 nnn
  | .call nnn => encodeNnn 0x2 nnn
  | .seImm x kk => encodeXkk 0x3 x kk
  | .sneImm x kk => encodeXkk 0x4 x kk
  | .seReg x y => encodeXyn 0x5 x y 0x0
  | .ldImm x kk => encodeXkk 0x6 x kk
  | .addImm x kk => encodeXkk 0x7 x kk
  | .ldReg x y => encodeXyn 0x8 x y 0x0
  | .orReg x y => encodeXyn 0x8 x y 0x1
  | .andReg x y => encodeXyn 0x8 x y 0x2
  | .xorReg x y => encodeXyn 0x8 x y 0x3
  | .addReg x y => encodeXyn 0x8 x y 0x4
  | .sub x y => encodeXyn 0x8 x y 0x5
  | .shr x y => encodeXyn 0x8 x y 0x6
  | .subn x y => encodeXyn 0x8 x y 0x7
  | .shl x y => encodeXyn 0x8 x y 0xE
  | .sneReg x y => encodeXyn 0x9 x y 0x0
  | .ldI nnn => encodeNnn 0xA nnn
  | .jpV0 nnn => encodeNnn 0xB nnn
  | .rnd x kk => encodeXkk 0xC x kk
  | .drw x y n => encodeXyn 0xD x y n
  | .skp x => encodeXkk 0xE x 0x9E
  | .sknp x => encodeXkk 0xE x 0xA1
  | .ldVxDt x => encodeXkk 0xF x 0x07
  | .ldVxK x => encodeXkk 0xF x 0x0A
  | .ldDt x => encodeXkk 0xF x 0x15
  | .ldSt x => encodeXkk 0xF x 0x18
  | .addI x => encodeXkk 0xF x 0x1E
  | .ldF x => encodeXkk 0xF x 0x29
  | .ldB x => encodeXkk 0xF x 0x33
  | .ldMemVx x => encodeXkk 0xF x 0x55
  | .ldVxMem x => encodeXkk 0xF x 0x65
  | .nop0 nnn => encodeNnn 0x0 nnn
  | .nop5 x y n => encodeXyn 0x5 x y n
  | .nop8 x y n => encodeXyn 0x8 x y n
  | .nop9 x y n => encodeXyn 0x9 x y n
  | .nopE x kk => encodeXkk 0xE x kk
  | .nopF x kk => encodeXkk 0xF x kk

/-- The byte of a word at the lower address, bits 15 to 8 (R66). -/
def highByte (w : Word) : Byte := w.extractLsb' 8 8

/-- The byte of a word at the higher address, bits 7 to 0 (R66). -/
def lowByte (w : Word) : Byte := w.extractLsb' 0 8

/-- The two bytes of an instruction as memory holds them, big-endian (R66). -/
def encode (i : Instr) : List Byte := [highByte (encodeWord i), lowByte (encodeWord i)]

/-- The 16-bit instruction word that the first `nbits` bits of `w` make, every bit above them 0, numbered as
spec/opcode_table.json numbers them (bit 0 the least significant bit of the word, R11). -/
def tableWord (nbits w : Nat) : Word := BitVec.ofNat 16 (w % 2 ^ nbits)

/-- The instruction that the decoder reads from the bytes of `tableWord nbits w` as memory holds them. -/
def decodeTableWord (nbits w : Nat) : Option Instr :=
  match decode [highByte (tableWord nbits w), lowByte (tableWord nbits w)] with
  | .ok (i, _) => some i
  | .error _ => none

end Sys2Proof
end

