-- ==== Sys2Proof/Config.lean ====
section
/-! DEFINITION. The parameters the source fixes (R9) and the one free value of the core, the random byte.
The OPEN parameters RESET_V, RESET_I, UNINIT_MEM and FONT_ROM stand in Sys2Proof/Machine/Params.lean. -/
namespace Sys2Proof.Config

/-- `MEM_SIZE` (R9): addresses 0 to 4095. -/
abbrev memSize : Nat := 4096

/-- `PROG_BASE` (R9): where a program is loaded and where PC starts. -/
abbrev progBase : Nat := 512

/-- `PROG_MAX` (R9): the longest program, 4096 - 512 bytes. -/
abbrev progMax : Nat := 3584

/-- `STACK_DEPTH` (R9, 90_conflicts.md C4). -/
abbrev stackDepth : Nat := 16

/-- The size of the font, 16 glyphs of 5 bytes at addresses 0 to 79 (R9, R67). -/
abbrev fontBytes : Nat := 80

/-- FREE VALUE. `RAND` (R9, R49, D37): the byte that the Random Source answers to draw number `k` of a run.
It has no body: nothing can be proved of its value, so a claim about a draw holds for every byte (log entry 8). -/
opaque randByte : Nat → Byte

end Sys2Proof.Config
end

