-- ==== Sys2Proof/Machine/Params.lean ====
section
/-! DEFINITION. The OPEN parameters of R9 (RESET_V, RESET_I, UNINIT_MEM, FONT_ROM), at the values of the spec's
reference state S0 (95_test_vectors.md, Conventions). Log entries 3, 4, 6 and 7. -/
namespace Sys2Proof.Machine

/-- `RESET_V` (R50, D26). DESIGN CHOICE (log entry 3, unsafe): the source gives no value. -/
def resetV : Byte := 0#8

/-- `RESET_I` (R30, R50, D26). DESIGN CHOICE (log entry 4, unsafe): the source gives no value. -/
def resetI : Word := 0#16

/-- `UNINIT_MEM` (R61, R340, D27): a byte that neither the font nor the load has written.
DESIGN CHOICE (log entry 6, unsafe): the source gives no value. -/
def uninitMem (_ : Nat) : Byte := 0#8

/-- `FONT_ROM` (R67, D28), glyphs 0 to 7, five bytes each. Glyph 0 is the spec's; glyphs 1 to 7 are
PRESUMED (log entry 7, unsafe): the conventional table that R67 recommends. -/
def fontLow : List Byte :=
  [0xF0, 0x90, 0x90, 0x90, 0xF0,
   0x20, 0x60, 0x20, 0x20, 0x70,
   0xF0, 0x10, 0xF0, 0x80, 0xF0,
   0xF0, 0x10, 0xF0, 0x10, 0xF0,
   0x90, 0x90, 0xF0, 0x10, 0x10,
   0xF0, 0x80, 0xF0, 0x10, 0xF0,
   0xF0, 0x80, 0xF0, 0x90, 0xF0,
   0xF0, 0x10, 0x20, 0x40, 0x40]

/-- `FONT_ROM` (R67, D28), glyphs 8 to F. PRESUMED (log entry 7, unsafe): the conventional table that R67 recommends. -/
def fontHigh : List Byte :=
  [0xF0, 0x90, 0xF0, 0x90, 0xF0,
   0xF0, 0x90, 0xF0, 0x10, 0xF0,
   0xF0, 0x90, 0xF0, 0x90, 0x90,
   0xE0, 0x90, 0xE0, 0x90, 0xE0,
   0xF0, 0x80, 0x80, 0x80, 0xF0,
   0xE0, 0x90, 0x90, 0x90, 0xE0,
   0xF0, 0x80, 0xF0, 0x80, 0xF0,
   0xF0, 0x80, 0xF0, 0x80, 0x80]

/-- `FONT_ROM` (R67): the 80 bytes at addresses 0 to 79. -/
def fontRom : List Byte := fontLow ++ fontHigh

/-- What an address reads as while nothing has been written there: the font at 0 to 79 (R61, R67),
`UNINIT_MEM` elsewhere (R61, R340). -/
def initialByte (a : Nat) : Byte :=
  if a < Config.fontBytes then fontRom.getD a 0#8 else uninitMem a

end Sys2Proof.Machine
end

