-- ==== Sys2Proof/Machine/State.lean ====
section
/-! DEFINITION. The state of the core (R20), the reasons a step may stop, and the state after reset (R50, R340). -/
namespace Sys2Proof.Machine

/-- The frame buffer: `fb[c][r]` is the pixel at column `c`, 0 to 63, and row `r`, 0 to 31 (R45). -/
abbrev FrameBuffer := Vector (Vector Bool 32) 64

/-- Memory: the bytes that differ from what an unlisted address reads as, by rising address. -/
abbrev Memory := List Host.Cell

/-- `LIFE`, the lifecycle state (R40). -/
inductive Life where
  /-- Loaded, not started. -/
  | ready
  /-- The instruction loop and the timer clock are active. -/
  | running
  /-- Terminal (R309). -/
  | stopped
deriving DecidableEq, Repr

/-- The six stop causes (R300). -/
inductive Cause where
  /-- Code 1: the host's stop while Running (R308, R321). -/
  | stopRequested
  /-- Code 2: a cycle with PC at 4095 or more (R122, R301). -/
  | pcOutOfRange
  /-- Code 3: an unrecognized family value; no word raises it (R126, R302). -/
  | unknownOpcode
  /-- Code 4: 2nnn with SP = 16 (R304). -/
  | stackOverflow
  /-- Code 5: 00EE with SP = 0 (R305). -/
  | stackUnderflow
  /-- Code 6: a data address of 4096 or more (R306). -/
  | memoryFault
deriving DecidableEq, Repr

/-- `STOP`, why and where the engine stopped (R43). -/
structure StopRecord where
  cause : Cause
  pc : Word
  word : Option Word
deriving DecidableEq, Repr

/-- The output events (R13, R322). -/
inductive OutEvent where
  /-- The Display Sink receives a copy of the whole grid (R255). -/
  | display (frame : FrameBuffer)
  /-- ST went from zero to non-zero (R288). -/
  | toneStart
  /-- ST went from non-zero to zero (R288). -/
  | toneStop
deriving DecidableEq, Repr

/-- The host events of a constructed engine (R322). A key code is a number the host names, so that a code
outside 0 to 15 can be offered and refused (R280). -/
inductive HostEvent where
  | start
  | stop
  | keyPress (code : Nat)
  | keyRelease (code : Nat)
deriving DecidableEq, Repr

/-- Whose step comes next: the instruction loop's, the timer tick's or the host's (R8). -/
inductive Turn where
  | loop
  | tick
  | host (e : HostEvent)
deriving DecidableEq, Repr

/-- The state of the core: exactly the fields of R20, under their names. -/
structure CoreState where
  /-- V0 to VF (R21) -/
  v : Vector Byte 16
  /-- I (R29) -/
  i : Word
  /-- PC (R25) -/
  pc : Word
  /-- SP, the number of entries on the stack (R32) -/
  sp : Byte
  /-- STACK[0] to STACK[15] (R31) -/
  stack : Vector Word 16
  /-- DT (R37) -/
  dt : Byte
  /-- ST (R38) -/
  st : Byte
  /-- MEM (R46) -/
  mem : Memory
  /-- FB (R45) -/
  fb : FrameBuffer
  /-- KEYS, one bit for each key code (R41) -/
  keys : Vector Bool 16
  /-- LASTKEY (R41) -/
  lastKey : Option Key
  /-- WAIT (R42) -/
  wait : Option Reg
  /-- LIFE (R40) -/
  life : Life
  /-- STOP (R43) -/
  stop : Option StopRecord
deriving DecidableEq, Repr

/-- The model's state: the core's own state (R20), and beside it what the model keeps of the core's surroundings: the steps
the other agents are about to take, the events the host has been handed, and how often the Random Source has answered.
None of the three is state of the core (log entries 1, 9, 8). -/
structure State extends CoreState where
  /-- MODEL'S OWN (log entry 1): whose steps come next, in order; when it is empty the loop's -/
  schedule : List Turn
  /-- MODEL'S OWN (log entry 9): the output trace (R255), oldest event first -/
  events : List OutEvent
  /-- MODEL'S OWN (log entry 8): how many random bytes have been drawn (R49) -/
  draws : Nat
deriving DecidableEq, Repr

/-- A turn that stops the model with no next state. None is a fault of the core: the core's faults are NEXT states
with LIFE = Stopped (R300, R303). -/
inductive Fault where
  /-- Raised by a loop turn in Ready, where the loop has no step (R120). Safe. -/
  | loopNotStarted
  /-- Raised by a loop turn during an Fx0A key-wait, where the loop has no step (R120, R277). Safe. -/
  | loopWaiting
  /-- Raised by a loop turn in Stopped, where the loop has no step (R120, R309). Safe. -/
  | loopStopped
  /-- Raised by 2nnn and 00EE when SP is above 16, which no run reaches (R32, R39; log entry 10). Safe. -/
  | spOutOfRange
deriving DecidableEq, Repr

/-- What the model refuses to take as a step. -/
inductive Refusal where
  /-- Raised by an arm of exec whose instruction has no meaning yet. Safe. -/
  | notModelled (mnemonic : String)
  /-- Raised by a tick turn in Ready or Stopped, which the host never delivers (R282, R323). Safe. -/
  | tickOutsideRunning
  /-- Raised by a key event whose code is above 15, which the interface refuses (R280). Safe. -/
  | keyCodeOutOfRange
deriving DecidableEq, Repr

/-- The answer to `Load` (R322, R307). -/
inductive LoadResult where
  /-- The constructed engine, in Ready. -/
  | loaded (s : State)
  /-- The program is longer than 3584 bytes; no engine exists. -/
  | oversizedProgram
deriving DecidableEq, Repr

/-- The state after reset with an empty program (R50, R340). -/
def State.reset : State where
  v := Vector.replicate 16 resetV
  i := resetI
  pc := 512#16
  sp := 0#8
  stack := Vector.replicate 16 0#16
  dt := 0#8
  st := 0#8
  mem := []
  fb := Vector.replicate 64 (Vector.replicate 32 false)
  keys := Vector.replicate 16 false
  lastKey := none
  wait := none
  life := .ready
  stop := none
  schedule := []
  events := []
  draws := 0

end Sys2Proof.Machine
end

