-- ==== Sys2Proof/Machine/Ops.lean ====
section
/-! DEFINITION. The named operations over the state: register and memory accesses (R63), the stack (R34, R35),
output events (R13), and the one way the engine stops (R43, R300, R303). -/
namespace Sys2Proof.Machine

/-- What a step or an instruction answers. -/
abbrev Result := Host.Outcome State Fault Refusal

/-! One update for each field of State. -/

/-- `V[x] <- b` (R13, R21). -/
def State.writeV (s : State) (x : Reg) (b : Byte) : State := { s with v := s.v.set x.val b x.isLt }

/-- The whole register file replaced. -/
def State.setV (s : State) (v : Vector Byte 16) : State := { s with v := v }

/-- `I <- a`. -/
def State.setI (s : State) (a : Word) : State := { s with i := a }

/-- `PC <- a`. -/
def State.setPc (s : State) (a : Word) : State := { s with pc := a }

/-- `SP <- n`. -/
def State.setSp (s : State) (n : Byte) : State := { s with sp := n }

/-- `STACK[j] <- a`. -/
def State.setSlot (s : State) (j : Fin 16) (a : Word) : State := { s with stack := s.stack.set j.val a j.isLt }

/-- `DT <- b`. -/
def State.setDt (s : State) (b : Byte) : State := { s with dt := b }

/-- `ST <- b`, without its tone edge (`State.writeSt` has it). -/
def State.setSt (s : State) (b : Byte) : State := { s with st := b }

/-- The whole memory replaced. -/
def State.setMem (s : State) (m : Memory) : State := { s with mem := m }

/-- The whole frame buffer replaced. -/
def State.setFb (s : State) (f : FrameBuffer) : State := { s with fb := f }

/-- Key `k` marked as down or up in KEYS. -/
def State.setKey (s : State) (k : Key) (down : Bool) : State := { s with keys := s.keys.set k.val down k.isLt }

/-- `LASTKEY <- k`. -/
def State.setLastKey (s : State) (k : Option Key) : State := { s with lastKey := k }

/-- `WAIT <- w`. -/
def State.setWait (s : State) (w : Option Reg) : State := { s with wait := w }

/-- `LIFE <- l`. -/
def State.setLife (s : State) (l : Life) : State := { s with life := l }

/-- `STOP <- r`. -/
def State.setStop (s : State) (r : Option StopRecord) : State := { s with stop := r }

/-- The turns that are still to come. -/
def State.setSchedule (s : State) (l : List Turn) : State := { s with schedule := l }

/-- `emit e`: the event is appended to the output trace (R13, R255). -/
def State.emit (s : State) (e : OutEvent) : State := { s with events := s.events ++ [e] }

/-- The Random Source has answered one more byte (R49). -/
def State.countDraw (s : State) : State := { s with draws := s.draws + 1 }

/-! Registers. -/

/-- `V[x]` (R13). -/
def State.readV (s : State) (x : Reg) : Byte := s.v[x.val]

/-- The index of VF, the flag register (R22). -/
def regF : Reg := 15

/-- The flag is written first and the result second, so that the result is what remains when `x` is 15 (R180, D3). -/
def State.writeFlagThenResult (s : State) (x : Reg) (flag result : Byte) : State :=
  (s.writeV regF flag).writeV x result

/-- Registers from index `k` upward take the bytes in order (R225). A byte past V15 has no register; R225 never has one. -/
def writeRegs (v : Vector Byte 16) (k : Nat) : List Byte → Vector Byte 16
  | [] => v
  | b :: bs => writeRegs (v.setIfInBounds k b) (k + 1) bs

/-- V0 to Vx, in order (R224). -/
def State.regsUpTo (s : State) (x : Reg) : List Byte := s.v.toList.take (x.val + 1)

/-! Memory. -/

/-- The canonical form: addresses strictly rising, each in the address space, and no byte listed that an unlisted
address reads as. -/
abbrev Memory.wf (m : Memory) : Prop :=
  m.Pairwise (fun c d => c.1 < d.1) ∧ ∀ c ∈ m, c.1 < Config.memSize ∧ c.2 ≠ initialByte c.1

/-- `MemRead(a, 1)` (R63). The callers have checked the range (R64). -/
def Memory.read : Memory → Nat → Byte
  | [], a => initialByte a
  | (k, b) :: m, a => if a = k then b else Memory.read m a

/-- The cell is listed in front of `m` unless it holds what an unlisted address reads as. -/
def Memory.cons (a : Nat) (b : Byte) (m : Memory) : Memory :=
  if b = initialByte a then m else (a, b) :: m

/-- `MemWrite(a, 1, b)` (R63, R65): every address is writable. -/
def Memory.write : Memory → Nat → Byte → Memory
  | [], a, b => Memory.cons a b []
  | (k, c) :: m, a, b =>
    if a < k then Memory.cons a b ((k, c) :: m)
    else if a = k then Memory.cons a b m
    else (k, c) :: Memory.write m a b

/-- `n` bytes from address `a` upward (R62). -/
def Memory.readBytes (m : Memory) (a : Nat) : Nat → List Byte
  | 0 => []
  | n + 1 => Memory.read m a :: Memory.readBytes m (a + 1) n

/-- Bytes written one by one from address `a` upward (R62, R69). -/
def Memory.storeBytes (m : Memory) (a : Nat) : List Byte → Memory
  | [] => m
  | b :: bs => Memory.storeBytes (Memory.write m a b) (a + 1) bs

/-- `MemRead(a, 2)`, big-endian (R13, R66). -/
def Memory.readWord (m : Memory) (a : Nat) : Word := wordOfBytes (Memory.read m a) (Memory.read m (a + 1))

/-- Every one of the `n` addresses from `a` upward, computed without wrapping, is below 4096 (R64). No address at all
is in range wherever `a` stands (R252, n = 0). -/
def inRange (a n : Nat) : Bool := n = 0 || decide (a + n ≤ Config.memSize)

/-! Stopping. -/

/-- The engine stops: LIFE and STOP are written and nothing else (R43, R300). -/
def State.halt (s : State) (c : Cause) (pc : Word) (word : Option Word) : State :=
  (s.setLife .stopped).setStop (some ⟨c, pc, word⟩)

/-- `raise Fault(c)` by instruction `i` (R303): the state as fetch left it, PC = a + 2 included, stopped with the record of
the instruction's address `a` and word. DEDUCED (log entry 11): `a` is PC - 2 and the word is the encoding of `i`. -/
def raiseFault (c : Cause) (i : Instr) (s : State) : Result :=
  .next (s.halt c (s.pc - 2#16) (some (encodeWord i)))

/-- The range check comes before any effect of the instruction (R64, R129): with an address of 4096 or more the
instruction raises MemoryFault and nothing of `effect` happens. -/
def withAccess (i : Instr) (a n : Nat) (s : State) (effect : State) : Result :=
  if inRange a n then .next effect else raiseFault .memoryFault i s

/-- The numeric code of a stop cause (R300). -/
def Cause.code : Cause → Nat
  | .stopRequested => 1
  | .pcOutOfRange => 2
  | .unknownOpcode => 3
  | .stackOverflow => 4
  | .stackUnderflow => 5
  | .memoryFault => 6

/-- Which causes a claim treats as faults: 3 to 6 (R324). -/
def Cause.isFault : Cause → Bool
  | .stopRequested => false
  | .pcOutOfRange => false
  | .unknownOpcode => true
  | .stackOverflow => true
  | .stackUnderflow => true
  | .memoryFault => true

/-- `Status` (R322): LIFE, and STOP when Stopped. -/
def State.status (s : State) : Life × Option StopRecord :=
  (s.life, if s.life = .stopped then s.stop else none)

/-! The stack. -/

/-- `Push(a)` by instruction `i` and then PC <- `target` (R34, R152). The pushed value is PC.
SP above 16 stands in no reachable state and stops by name (log entry 10). -/
def pushAndJump (i : Instr) (target : Word) (s : State) : Result :=
  if s.sp = 16#8 then raiseFault .stackOverflow i s
  else if h : s.sp.toNat < 16 then
    .next (((s.setSlot ⟨s.sp.toNat, h⟩ s.pc).setSp (s.sp + 1#8)).setPc target)
  else .fault .spOutOfRange

/-- `PC <- Pop()` by instruction `i` (R35, R150). The slot is not cleared.
SP above 16 stands in no reachable state and stops by name (log entry 10). -/
def popAndJump (i : Instr) (s : State) : Result :=
  if s.sp = 0#8 then raiseFault .stackUnderflow i s
  else if h : (s.sp - 1#8).toNat < 16 then
    .next ((s.setSp (s.sp - 1#8)).setPc s.stack[(s.sp - 1#8).toNat])
  else .fault .spOutOfRange

/-! The tone. -/

/-- "Tone on" is the condition ST different from 0 (R44). -/
def State.toneOn (s : State) : Bool := s.st != 0#8

/-- ST is written and the edge of the tone that this makes is emitted, in one step (R274, R283, R288). -/
def State.writeSt (s : State) (b : Byte) : State :=
  if s.st = 0#8 ∧ b ≠ 0#8 then (s.setSt b).emit .toneStart
  else if s.st ≠ 0#8 ∧ b = 0#8 then (s.setSt b).emit .toneStop
  else s.setSt b

/-! Control. -/

/-- A skip adds 2 to the PC that fetch has advanced, if its condition holds (R26, R154). -/
def State.skipIf (s : State) (c : Bool) : State := if c then s.setPc (s.pc + 2#16) else s

end Sys2Proof.Machine
end

