-- ==== Sys2Proof/Machine/Operands.lean ====
section
/-! DEFINITION. The operand forms (R94): zero-extended immediates and registers, I-relative addresses (R64), the
glyph address (R222), the BCD digits (R223), the jump table sum (R153), the key a register names (R270), sprite bytes. -/
namespace Sys2Proof.Machine

/-- `zext_16(nnn)` (R94). -/
def zextNnn (nnn : Addr12) : Word := nnn.setWidth 16

/-- `zext_16(b)` (R12). -/
def zextByte (b : Byte) : Word := b.setWidth 16

/-- The address in I as an unbounded natural number (R64, D41). -/
def State.addrI (s : State) : Nat := s.i.toNat

/-- `V0 + nnn`, a 16-bit sum that is not reduced to 12 bits (R153, D42). -/
def State.jumpSum (s : State) (nnn : Addr12) : Word := zextNnn nnn + zextByte (s.readV 0)

/-- The address of the font glyph of a digit, `b * 5`, with no masking (R222, D12). -/
def glyphAddr (b : Byte) : Word := zextByte b * 5#16

/-- Hundreds, tens and ones of a byte (R223). -/
def bcdDigits (b : Byte) : List Byte :=
  [BitVec.ofNat 8 (b.toNat / 100), BitVec.ofNat 8 (b.toNat / 10 % 10), BitVec.ofNat 8 (b.toNat % 10)]

/-- Whether the key that `b` names is down; a value of 16 or more names no key (R270, R271, D15). -/
def State.keyDown (s : State) (b : Byte) : Bool :=
  if h : b.toNat < 16 then s.keys[b.toNat] else false

/-- The `n` sprite rows from I upward (R252). -/
def State.spriteRows (s : State) (n : Nibble) : List Byte := Memory.readBytes s.mem s.addrI n.toNat

end Sys2Proof.Machine
end

