-- ==== Sys2Proof/Machine/Flags.lean ====
section
/-! DEFINITION. Every computation of VF (R28): carry, the two strict comparisons, the bits shifted out, collision. -/
namespace Sys2Proof.Machine

/-- A flag as the byte VF takes, 1 or 0 (R28). -/
def flagByte (b : Bool) : Byte := if b then 1#8 else 0#8

/-- Carry of 8xy4: the sum exceeds 255 (R187). -/
def carryFlag (a b : Byte) : Byte := flagByte (decide (255 < a.toNat + b.toNat))

/-- The flag of 8xy5 and, with the operands exchanged, of 8xy7: `a` strictly greater than `b` (R188, R190). -/
def greaterFlag (a b : Byte) : Byte := flagByte (decide (b.toNat < a.toNat))

/-- The bit that 8xy6 shifts out, bit 0 (R189). -/
def lowBitFlag (a : Byte) : Byte := a &&& 1#8

/-- The bit that 8xyE shifts out, bit 7 (R191). -/
def highBitFlag (a : Byte) : Byte := (a &&& 0x80#8) >>> 7

end Sys2Proof.Machine
end

