-- ==== Sys2Proof/Machine/Alu.lean ====
section
/-! DEFINITION. Register and arithmetic instructions (R180 to R193). Operands are read before anything is written (R180). -/
namespace Sys2Proof.Machine

/-- 6xkk `LD Vx, byte` (R181). -/
def execLdImm (x : Reg) (kk : Byte) (s : State) : Result := .next (s.writeV x kk)

/-- 7xkk `ADD Vx, byte` (R182): no flag (D13). -/
def execAddImm (x : Reg) (kk : Byte) (s : State) : Result := .next (s.writeV x (s.readV x + kk))

/-- 8xy0 `LD Vx, Vy` (R183). -/
def execLdReg (x y : Reg) (s : State) : Result := .next (s.writeV x (s.readV y))

/-- 8xy1 `OR Vx, Vy` (R184): no flag (D13). -/
def execOrReg (x y : Reg) (s : State) : Result := .next (s.writeV x (s.readV x ||| s.readV y))

/-- 8xy2 `AND Vx, Vy` (R185): no flag (D13). -/
def execAndReg (x y : Reg) (s : State) : Result := .next (s.writeV x (s.readV x &&& s.readV y))

/-- 8xy3 `XOR Vx, Vy` (R186): no flag (D13). -/
def execXorReg (x y : Reg) (s : State) : Result := .next (s.writeV x (s.readV x ^^^ s.readV y))

/-- 8xy4 `ADD Vx, Vy` (R187): carry, then the sum. -/
def execAddReg (x y : Reg) (s : State) : Result :=
  .next (s.writeFlagThenResult x (carryFlag (s.readV x) (s.readV y)) (s.readV x + s.readV y))

/-- 8xy5 `SUB Vx, Vy` (R188): strictly greater, then the difference. -/
def execSub (x y : Reg) (s : State) : Result :=
  .next (s.writeFlagThenResult x (greaterFlag (s.readV x) (s.readV y)) (s.readV x - s.readV y))

/-- 8xy6 `SHR Vx, Vy` (R189): Vy is not read (R95, D43). -/
def execShr (x _y : Reg) (s : State) : Result :=
  .next (s.writeFlagThenResult x (lowBitFlag (s.readV x)) (s.readV x >>> 1))

/-- 8xy7 `SUBN Vx, Vy` (R190): strictly greater, then the difference. -/
def execSubn (x y : Reg) (s : State) : Result :=
  .next (s.writeFlagThenResult x (greaterFlag (s.readV y) (s.readV x)) (s.readV y - s.readV x))

/-- 8xyE `SHL Vx, Vy` (R191, 90_conflicts.md C1): Vy is not read (R95, D43). -/
def execShl (x _y : Reg) (s : State) : Result :=
  .next (s.writeFlagThenResult x (highBitFlag (s.readV x)) (s.readV x <<< 1))

/-- Cxkk `RND Vx, byte` (R192): one fresh draw, a free value (log entry 8). -/
def execRnd (x : Reg) (kk : Byte) (s : State) : Result :=
  .next ((s.writeV x (Config.randByte s.draws &&& kk)).countDraw)

end Sys2Proof.Machine
end

