-- ==== Sys2Proof/Machine/Control.lean ====
section
/-! DEFINITION. Control transfer (R150 to R159): return, jumps, call and the register skips. PC on entry is a + 2 (R25). -/
namespace Sys2Proof.Machine

/-- 00EE `RET` (R150). -/
def execRet (s : State) : Result := popAndJump .ret s

/-- 1nnn `JP addr` (R151). -/
def execJp (nnn : Addr12) (s : State) : Result := .next (s.setPc (zextNnn nnn))

/-- 2nnn `CALL addr` (R152). -/
def execCall (nnn : Addr12) (s : State) : Result := pushAndJump (.call nnn) (zextNnn nnn) s

/-- 3xkk `SE Vx, byte` (R154). -/
def execSeImm (x : Reg) (kk : Byte) (s : State) : Result := .next (s.skipIf (s.readV x == kk))

/-- 4xkk `SNE Vx, byte` (R155). -/
def execSneImm (x : Reg) (kk : Byte) (s : State) : Result := .next (s.skipIf (s.readV x != kk))

/-- 5xy0 `SE Vx, Vy` (R156). -/
def execSeReg (x y : Reg) (s : State) : Result := .next (s.skipIf (s.readV x == s.readV y))

/-- 9xy0 `SNE Vx, Vy` (R157). -/
def execSneReg (x y : Reg) (s : State) : Result := .next (s.skipIf (s.readV x != s.readV y))

/-- Bnnn `JP V0, addr` (R153). -/
def execJpV0 (nnn : Addr12) (s : State) : Result := .next (s.setPc (s.jumpSum nnn))

end Sys2Proof.Machine
end

