-- ==== Sys2Proof/Machine/Index.lean ====
section
/-! DEFINITION. Address register and memory instructions (R220 to R225). -/
namespace Sys2Proof.Machine

/-- Annn `LD I, addr` (R220). -/
def execLdI (nnn : Addr12) (s : State) : Result := .next (s.setI (zextNnn nnn))

/-- Fx1E `ADD I, Vx` (R221): modulo 65536, no flag (D11). -/
def execAddI (x : Reg) (s : State) : Result := .next (s.setI (s.i + zextByte (s.readV x)))

/-- Fx29 `LD F, Vx` (R222). -/
def execLdF (x : Reg) (s : State) : Result := .next (s.setI (glyphAddr (s.readV x)))

/-- Fx33 `LD B, Vx` (R223): I is not changed (D10). -/
def execLdB (x : Reg) (s : State) : Result :=
  withAccess (.ldB x) s.addrI 3 s (s.setMem (Memory.storeBytes s.mem s.addrI (bcdDigits (s.readV x))))

/-- The amount that Fx55 and Fx65 advance I by, x + 1 (R224, R225, D10). -/
def advance (x : Reg) : Word := BitVec.ofNat 16 (x.val + 1)

/-- Fx55 `LD [I], Vx` (R224). -/
def execLdMemVx (x : Reg) (s : State) : Result :=
  withAccess (.ldMemVx x) s.addrI (x.val + 1) s
    ((s.setMem (Memory.storeBytes s.mem s.addrI (s.regsUpTo x))).setI (s.i + advance x))

/-- Fx65 `LD Vx, [I]` (R225). -/
def execLdVxMem (x : Reg) (s : State) : Result :=
  withAccess (.ldVxMem x) s.addrI (x.val + 1) s
    ((s.setV (writeRegs s.v 0 (Memory.readBytes s.mem s.addrI (x.val + 1)))).setI (s.i + advance x))

end Sys2Proof.Machine
end

