-- ==== Sys2Proof/Machine/Nop.lean ====
section
/-! DEFINITION. The no-op words (R102, R125): nothing changes; PC stays as fetch left it. -/
namespace Sys2Proof.Machine

/-- 0nnn other than 00E0 and 00EE (R125). -/
def execNop0 (_nnn : Addr12) (s : State) : Result := .next s

/-- 5xyn with n different from 0 (R125). -/
def execNop5 (_x _y : Reg) (_n : Nibble) (s : State) : Result := .next s

/-- 8xyn with an unlisted n (R125). -/
def execNop8 (_x _y : Reg) (_n : Nibble) (s : State) : Result := .next s

/-- 9xyn with n different from 0 (R125). -/
def execNop9 (_x _y : Reg) (_n : Nibble) (s : State) : Result := .next s

/-- Exkk with an unlisted kk (R125). -/
def execNopE (_x : Reg) (_kk : Byte) (s : State) : Result := .next s

/-- Fxkk with an unlisted kk (R125). -/
def execNopF (_x : Reg) (_kk : Byte) (s : State) : Result := .next s

end Sys2Proof.Machine
end

