-- ==== Sys2Proof/Machine/Display.lean ====
section
/-! DEFINITION. The frame buffer controller (R250): clearing, drawing by XOR with wrapping and collision
(R252, R253, R254), and the Display Sink (R255). -/
namespace Sys2Proof.Machine

/-- The all-false grid (R251). -/
def blankFrame : FrameBuffer := Vector.replicate 64 (Vector.replicate 32 false)

/-- `FB[c][r]` (R13). -/
def pixel (f : FrameBuffer) (c : Fin 64) (r : Fin 32) : Bool := f[c.val][r.val]

/-- `FB[c][r] <- b` (R13). -/
def setPixel (f : FrameBuffer) (c : Fin 64) (r : Fin 32) (b : Bool) : FrameBuffer :=
  f.set c.val (f[c.val].set r.val b r.isLt) c.isLt

/-- A pixel's column, `a mod 64` (R253). -/
def wrapColumn (a : Nat) : Fin 64 := ⟨a % 64, Nat.mod_lt a (by decide)⟩

/-- A pixel's row, `a mod 32` (R253, D7). -/
def wrapRow (a : Nat) : Fin 32 := ⟨a % 32, Nat.mod_lt a (by decide)⟩

/-- A 1 bit of the sprite meets pixel (c, r): collision if the pixel was on, and the pixel is inverted (R252, R254).
The pair is the grid and `collide`. -/
def xorPixel (d : FrameBuffer × Bool) (c : Fin 64) (r : Fin 32) : FrameBuffer × Bool :=
  (setPixel d.1 c r (!pixel d.1 c r), d.2 || pixel d.1 c r)

/-- The columns 0 to `k` - 1 of one sprite row at start column `cx`, in grid row `r` (R252); column 0 is bit 7. -/
def drawColumns (cx : Nat) (r : Fin 32) (row : Byte) (d : FrameBuffer × Bool) : Nat → FrameBuffer × Bool
  | 0 => d
  | k + 1 =>
    if row.getLsbD (7 - k) then xorPixel (drawColumns cx r row d k) (wrapColumn (cx + k)) r
    else drawColumns cx r row d k

/-- The sprite rows in order, the first in grid row `cy mod 32` (R252, R253). -/
def drawRows (cx cy : Nat) (d : FrameBuffer × Bool) : List Byte → FrameBuffer × Bool
  | [] => d
  | row :: rows => drawRows cx (cy + 1) (drawColumns cx (wrapRow cy) row d 8) rows

/-- The whole grid goes to the Display Sink (R255). -/
def State.emitDisplay (s : State) : State := s.emit (.display s.fb)

/-- The draw of Dxyn, its range check passed: pixels, then VF, then the event (R252). -/
def State.drawSprite (s : State) (x y : Reg) (n : Nibble) : State :=
  let d := drawRows (s.readV x).toNat (s.readV y).toNat (s.fb, false) (s.spriteRows n)
  ((s.setFb d.1).writeV regF (flagByte d.2)).emitDisplay

end Sys2Proof.Machine
end

