-- ==== Sys2Proof/Machine/Screen.lean ====
section
/-! DEFINITION. The display instructions (R251, R252). -/
namespace Sys2Proof.Machine

/-- 00E0 `CLS` (R251). -/
def execCls (s : State) : Result := .next ((s.setFb blankFrame).emitDisplay)

/-- Dxyn `DRW Vx, Vy, nibble` (R252). -/
def execDrw (x y : Reg) (n : Nibble) (s : State) : Result :=
  withAccess (.drw x y n) s.addrI n.toNat s (s.drawSprite x y n)

end Sys2Proof.Machine
end

