-- ==== Sys2Proof/Machine/TimerKey.lean ====
section
/-! DEFINITION. Timer, key skip and key-wait instructions (R270 to R275). -/
namespace Sys2Proof.Machine

/-- Ex9E `SKP Vx` (R270). -/
def execSkp (x : Reg) (s : State) : Result := .next (s.skipIf (s.keyDown (s.readV x)))

/-- ExA1 `SKNP Vx` (R271). -/
def execSknp (x : Reg) (s : State) : Result := .next (s.skipIf (!s.keyDown (s.readV x)))

/-- Fx07 `LD Vx, DT` (R272). -/
def execLdVxDt (x : Reg) (s : State) : Result := .next (s.writeV x s.dt)

/-- Fx0A `LD Vx, K` (R275): the loop suspends until a key press (R277, R278). -/
def execLdVxK (x : Reg) (s : State) : Result := .next (s.setWait (some x))

/-- Fx15 `LD DT, Vx` (R273). -/
def execLdDt (x : Reg) (s : State) : Result := .next (s.setDt (s.readV x))

/-- Fx18 `LD ST, Vx` (R274). -/
def execLdSt (x : Reg) (s : State) : Result := .next (s.writeSt (s.readV x))

end Sys2Proof.Machine
end

