-- ==== Sys2Proof/Machine/Lifecycle.lean ====
section
/-! DEFINITION. The steps of the other two agents: the timer tick (R282, R283) and the host (R276, R279, R321), and the
construction of an engine (R340). -/
namespace Sys2Proof.Machine

/-- A timer's value after one tick: one less, not below zero (R283). -/
def decrement (b : Byte) : Byte := if b = 0#8 then 0#8 else b - 1#8

/-- The tick's work on both timers: DT, then ST with its tone edge (R283, R284, R288). -/
def State.tickTimers (s : State) : State := (s.setDt (decrement s.dt)).writeSt (decrement s.st)

/-- The tick's turn: both timers in one step (R283, D45), only while Running (R282, D18). -/
def tickTurn (s : State) : Result :=
  match s.life with
  | .running => .next s.tickTimers
  | .ready => .refused .tickOutsideRunning
  | .stopped => .refused .tickOutsideRunning

/-- `KeyPress(k)`'s effect on a pending key-wait (R276, R278). -/
def State.endWait (s : State) (k : Key) : State :=
  match s.life, s.wait with
  | .running, some x => (s.writeV x (BitVec.ofNat 8 k.val)).setWait none
  | _, _ => s

/-- `KeyPress(k)` (R276), in every lifecycle state (D35); a code above 15 is refused (R280). -/
def keyPress (code : Nat) (s : State) : Result :=
  if h : code < 16 then .next (((s.setKey ⟨code, h⟩ true).setLastKey (some ⟨code, h⟩)).endWait ⟨code, h⟩)
  else .refused .keyCodeOutOfRange

/-- `KeyRelease(k)` (R279), in every lifecycle state (D35); a code above 15 is refused (R280). -/
def keyRelease (code : Nat) (s : State) : Result :=
  if h : code < 16 then .next (s.setKey ⟨code, h⟩ false) else .refused .keyCodeOutOfRange

/-- `Start` (R321). -/
def hostStart (s : State) : Result :=
  match s.life with
  | .ready => .next (s.setLife .running)
  | .running => .next s
  | .stopped => .next s

/-- `Stop` (R321), which also ends a key-wait without writing its register (R281). -/
def hostStop (s : State) : Result :=
  match s.life with
  | .running => .next ((s.setWait none).halt .stopRequested s.pc none)
  | .ready => .next s
  | .stopped => .next s

/-- The host's turn (R322). -/
def hostTurn (e : HostEvent) (s : State) : Result :=
  match e with
  | .start => hostStart s
  | .stop => hostStop s
  | .keyPress code => keyPress code s
  | .keyRelease code => keyRelease code s

/-- `Load(bytes)` at construction (R69, R307, R340): the program is copied to 512 onward over the reset memory, or the
load fails and no engine exists. -/
def construct (bytes : List Byte) : LoadResult :=
  if bytes.length ≤ Config.progMax then
    .loaded (State.reset.setMem (Memory.storeBytes State.reset.mem Config.progBase bytes))
  else .oversizedProgram

end Sys2Proof.Machine
end

