-- ==== Sys2Proof/Machine/Engine.lean ====
section
/-! DEFINITION. The instruction loop's cycle (R120 to R122), whose turn it is (R8), and the placing of one
instruction where the next cycle fetches it. -/
namespace Sys2Proof.Machine

/-- One cycle (R121): the range check of PC (R122), fetch and decode, PC <- a + 2, then the instruction. -/
def cycle (s : State) : Result :=
  if 4095 ≤ s.pc.toNat then .next (s.halt .pcOutOfRange s.pc none)
  else exec (decodeWord (Memory.readWord s.mem s.pc.toNat)) (s.setPc (s.pc + 2#16))

/-- The loop's turn (R120): a cycle when LIFE = Running and WAIT = none, and otherwise no step (log entry 2). -/
def loopTurn (s : State) : Result :=
  match s.life, s.wait with
  | .running, none => cycle s
  | .running, some _ => .fault .loopWaiting
  | .ready, _ => .fault .loopNotStarted
  | .stopped, _ => .fault .loopStopped

/-- One agent's step (R8). -/
def takeTurn (t : Turn) (s : State) : Result :=
  match t with
  | .loop => loopTurn s
  | .tick => tickTurn s
  | .host e => hostTurn e s

/-- The agent that the schedule names moves next; with nothing scheduled the loop does (log entry 1). -/
def advanceOne (s : State) : Result :=
  match s.schedule with
  | [] => loopTurn s
  | t :: rest => takeTurn t (s.setSchedule rest)

/-- The address the placed instruction goes to: PC, or 512 when PC is so high that no instruction can be fetched
there (R122). -/
def placeAt (s : State) : Word := if 4095 ≤ s.pc.toNat then 512#16 else s.pc

/-- `s` with the two bytes of `word` where the next cycle fetches, and the loop about to make that cycle: LIFE = Running,
WAIT = none and no turn scheduled before it (log entry 13). -/
def placeWord (s : State) (word : Word) : State :=
  ((((s.setMem (Memory.storeBytes s.mem (placeAt s).toNat [highByte word, lowByte word])).setPc (placeAt s)).setLife
    .running).setWait none).setSchedule []

end Sys2Proof.Machine
end

