-- ==== Sys2Proof/Machine/Step.lean ====
section
/-! DEFINITION. The machine's step, and the host's way to place one instruction. -/
namespace Sys2Proof.Machine

/-- One atomic step of one agent (R8, R14). -/
def step (s : State) : Host.Outcome State Fault Refusal := advanceOne s

/-- `s` with the instruction whose low `nbits` bits are `w` stored where `step` fetches its next instruction, and the
loop ready to run it (log entry 13). -/
def State.withFetchWord (s : State) (nbits w : Nat) : State := placeWord s (tableWord nbits w)

end Sys2Proof.Machine
end

