-- ==== Sys2Proof/Machine/Assembly.lean ====
section
/-! DEFINITION. The assembly syntax (R105, D33): the line an instruction is written as, the text of a line, and the one word
a line assembles to (R106). It has no part in what a word does: the hex word governs. -/
namespace Sys2Proof

/-- The mnemonics of R105. -/
inductive Mnemonic where
  | cls | ret | jp | call | se | sne | ld | add | or | and | xor | sub | shr | subn | shl | rnd | drw | skp | sknp
deriving DecidableEq, Repr

/-- An operand as it stands in a line (R105). -/
inductive AsmOperand where
  /-- `Vx`, V0 to VF -/
  | reg (x : Reg)
  /-- `byte` -/
  | byte (kk : Byte)
  /-- `addr` -/
  | addr (nnn : Addr12)
  /-- `nibble` -/
  | nibble (n : Nibble)
  /-- `I` -/
  | i
  /-- `[I]` -/
  | atI
  /-- `DT` -/
  | dt
  /-- `ST` -/
  | st
  /-- `K` -/
  | k
  /-- `F` -/
  | f
  /-- `B` -/
  | b
deriving DecidableEq, Repr

/-- A line of a program listing (R105). -/
inductive AsmLine where
  /-- A mnemonic and its operands. -/
  | op (m : Mnemonic) (operands : List AsmOperand)
  /-- `.word 0xHHHH` -/
  | word (w : Word)
deriving DecidableEq, Repr

/-- The line of an instruction, as the table of R105 gives it; a no-op word is written `.word` (R105). -/
def Instr.line : Instr → AsmLine
  | .cls => .op .cls []
  | .ret => .op .ret []
  | .jp nnn => .op .jp [.addr nnn]
  | .call nnn => .op .call [.addr nnn]
  | .seImm x kk => .op .se [.reg x, .byte kk]
  | .sneImm x kk => .op .sne [.reg x, .byte kk]
  | .seReg x y => .op .se [.reg x, .reg y]
  | .ldImm x kk => .op .ld [.reg x, .byte kk]
  | .addImm x kk => .op .add [.reg x, .byte kk]
  | .ldReg x y => .op .ld [.reg x, .reg y]
  | .orReg x y => .op .or [.reg x, .reg y]
  | .andReg x y => .op .and [.reg x, .reg y]
  | .xorReg x y => .op .xor [.reg x, .reg y]
  | .addReg x y => .op .add [.reg x, .reg y]
  | .sub x y => .op .sub [.reg x, .reg y]
  | .shr x y => .op .shr [.reg x, .reg y]
  | .subn x y => .op .subn [.reg x, .reg y]
  | .shl x y => .op .shl [.reg x, .reg y]
  | .sneReg x y => .op .sne [.reg x, .reg y]
  | .ldI nnn => .op .ld [.i, .addr nnn]
  | .jpV0 nnn => .op .jp [.reg 0, .addr nnn]
  | .rnd x kk => .op .rnd [.reg x, .byte kk]
  | .drw x y n => .op .drw [.reg x, .reg y, .nibble n]
  | .skp x => .op .skp [.reg x]
  | .sknp x => .op .sknp [.reg x]
  | .ldVxDt x => .op .ld [.reg x, .dt]
  | .ldVxK x => .op .ld [.reg x, .k]
  | .ldDt x => .op .ld [.dt, .reg x]
  | .ldSt x => .op .ld [.st, .reg x]
  | .addI x => .op .add [.i, .reg x]
  | .ldF x => .op .ld [.f, .reg x]
  | .ldB x => .op .ld [.b, .reg x]
  | .ldMemVx x => .op .ld [.atI, .reg x]
  | .ldVxMem x => .op .ld [.reg x, .atI]
  | .nop0 nnn => .word (encodeWord (.nop0 nnn))
  | .nop5 x y n => .word (encodeWord (.nop5 x y n))
  | .nop8 x y n => .word (encodeWord (.nop8 x y n))
  | .nop9 x y n => .word (encodeWord (.nop9 x y n))
  | .nopE x kk => .word (encodeWord (.nopE x kk))
  | .nopF x kk => .word (encodeWord (.nopF x kk))

/-- The instruction of a mnemonic `LD` with its operands (R105). -/
def assembleLd : List AsmOperand → Option Instr
  | [.reg x, .byte kk] => some (.ldImm x kk)
  | [.reg x, .reg y] => some (.ldReg x y)
  | [.i, .addr nnn] => some (.ldI nnn)
  | [.reg x, .dt] => some (.ldVxDt x)
  | [.reg x, .k] => some (.ldVxK x)
  | [.dt, .reg x] => some (.ldDt x)
  | [.st, .reg x] => some (.ldSt x)
  | [.f, .reg x] => some (.ldF x)
  | [.b, .reg x] => some (.ldB x)
  | [.atI, .reg x] => some (.ldMemVx x)
  | [.reg x, .atI] => some (.ldVxMem x)
  | _ => none

/-- The instruction of a register and register operation; no other operands are written with it (R105). -/
def assembleXy (f : Reg → Reg → Instr) : List AsmOperand → Option Instr
  | [.reg x, .reg y] => some (f x y)
  | _ => none

/-- The instruction of a shift: with one register only, `y` is 0 (R105). -/
def assembleShift (f : Reg → Reg → Instr) : List AsmOperand → Option Instr
  | [.reg x, .reg y] => some (f x y)
  | [.reg x] => some (f x 0)
  | _ => none

/-- The instruction of a skip that compares with a byte or with a register (R105). -/
def assembleSkip (imm : Reg → Byte → Instr) (reg : Reg → Reg → Instr) : List AsmOperand → Option Instr
  | [.reg x, .byte kk] => some (imm x kk)
  | [.reg x, .reg y] => some (reg x y)
  | _ => none

/-- The instruction of a key skip (R105). -/
def assembleX (f : Reg → Instr) : List AsmOperand → Option Instr
  | [.reg x] => some (f x)
  | _ => none

/-- The instruction that a mnemonic with its operands is, if they are a row of the table of R105. -/
def assembleOp (m : Mnemonic) (ops : List AsmOperand) : Option Instr :=
  match m with
  | .cls => if ops = [] then some .cls else none
  | .ret => if ops = [] then some .ret else none
  | .jp =>
    match ops with
    | [.addr nnn] => some (.jp nnn)
    | [.reg x, .addr nnn] => if x = 0 then some (.jpV0 nnn) else none
    | _ => none
  | .call =>
    match ops with
    | [.addr nnn] => some (.call nnn)
    | _ => none
  | .se => assembleSkip .seImm .seReg ops
  | .sne => assembleSkip .sneImm .sneReg ops
  | .ld => assembleLd ops
  | .add =>
    match ops with
    | [.reg x, .byte kk] => some (.addImm x kk)
    | [.reg x, .reg y] => some (.addReg x y)
    | [.i, .reg x] => some (.addI x)
    | _ => none
  | .or => assembleXy .orReg ops
  | .and => assembleXy .andReg ops
  | .xor => assembleXy .xorReg ops
  | .sub => assembleXy .sub ops
  | .shr => assembleShift .shr ops
  | .subn => assembleXy .subn ops
  | .shl => assembleShift .shl ops
  | .rnd =>
    match ops with
    | [.reg x, .byte kk] => some (.rnd x kk)
    | _ => none
  | .drw =>
    match ops with
    | [.reg x, .reg y, .nibble n] => some (.drw x y n)
    | _ => none
  | .skp => assembleX .skp ops
  | .sknp => assembleX .sknp ops

/-- The one word that a line assembles to (R106); a line that is no row of R105 has none. -/
def AsmLine.assemble : AsmLine → Option Word
  | .op m ops => (assembleOp m ops).map encodeWord
  | .word w => some w

/-- The mnemonic as it is written (R105). -/
def Mnemonic.text : Mnemonic → String
  | .cls => "CLS"
  | .ret => "RET"
  | .jp => "JP"
  | .call => "CALL"
  | .se => "SE"
  | .sne => "SNE"
  | .ld => "LD"
  | .add => "ADD"
  | .or => "OR"
  | .and => "AND"
  | .xor => "XOR"
  | .sub => "SUB"
  | .shr => "SHR"
  | .subn => "SUBN"
  | .shl => "SHL"
  | .rnd => "RND"
  | .drw => "DRW"
  | .skp => "SKP"
  | .sknp => "SKNP"

/-- A hex digit. -/
def hexDigit (n : Nat) : String :=
  ["0", "1", "2", "3", "4", "5", "6", "7", "8", "9", "A", "B", "C", "D", "E", "F"].getD (n % 16) ""

/-- The lowest `digits` hex digits of a number, the highest first. -/
def hexDigits : Nat → Nat → String
  | 0, _ => ""
  | digits + 1, n => hexDigits digits (n / 16) ++ hexDigit n

/-- An operand as it is written: bytes and addresses in hex with a `0x` prefix, a row count in decimal (R105 and the
listings of 95_test_vectors.md). -/
def AsmOperand.text : AsmOperand → String
  | .reg x => "V" ++ hexDigit x.val
  | .byte kk => "0x" ++ hexDigits 2 kk.toNat
  | .addr nnn => "0x" ++ hexDigits 3 nnn.toNat
  | .nibble n => if n.toNat < 10 then hexDigit n.toNat else "1" ++ hexDigit (n.toNat - 10)
  | .i => "I"
  | .atI => "[I]"
  | .dt => "DT"
  | .st => "ST"
  | .k => "K"
  | .f => "F"
  | .b => "B"

/-- A line as it is written (R105). -/
def AsmLine.text : AsmLine → String
  | .op m [] => m.text
  | .op m (a :: ops) => ops.foldl (fun t o => t ++ ", " ++ o.text) (m.text ++ " " ++ a.text)
  | .word w => ".word 0x" ++ hexDigits 4 w.toNat

end Sys2Proof
end

