-- ==== Sys2Proof/Safety.lean ====
section
/-! DEFINITION. What counts as a safe run, and the invariants that the core's own steps keep. -/
namespace Sys2Proof.Machine

/-- No fault is recorded: STOP is none or its cause is none of 3, 4, 5 and 6 (R324). -/
abbrev State.NoFault (s : State) : Prop := ∀ r ∈ s.stop, r.cause.isFault = false

/-- A run has ended (R131). -/
abbrev State.Ended (s : State) : Prop := s.life = .stopped

/-- The run waits on the host for a key press or a stop; it has not ended (R131). -/
abbrev State.Waiting (s : State) : Prop := s.life = .running ∧ s.wait ≠ none

/-- The loop has a step (R120). -/
abbrev State.LoopReady (s : State) : Prop := s.life = .running ∧ s.wait = none

/-- The legal states of the core. -/
structure State.Inv (s : State) : Prop where
  /-- Memory keeps its canonical form and lists no address outside 0 to 4095 (R60). -/
  memory : Memory.wf s.mem
  /-- SP is 0 to 16 (R32, R39). -/
  sp : s.sp.toNat ≤ 16
  /-- PC is at most 0x10FE (R27). -/
  pc : s.pc.toNat ≤ 0x10FE
  /-- Every return address on the stack is at most 0x1000 (R152). -/
  returns : ∀ j : Fin 16, j.val < s.sp.toNat → s.stack[j.val].toNat ≤ 0x1000
  /-- STOP is none exactly while the engine is not Stopped (R43). -/
  stop : s.stop = none ↔ s.life ≠ .stopped
  /-- A key-wait is part of Running (R40). -/
  wait : s.wait ≠ none → s.life = .running

/-- What one output event does to the tone: on after `ToneStart`, off after `ToneStop`; `none` marks a trace whose tone
events do not alternate (R288). -/
def toneStep (t : Option Bool) (e : OutEvent) : Option Bool :=
  match t, e with
  | t, .display _ => t
  | some false, .toneStart => some true
  | some true, .toneStop => some false
  | _, _ => none

/-- Whether the tone is on after a trace that began with the tone off; `none` if its tone events do not alternate. -/
def toneAfter (l : List OutEvent) : Option Bool := l.foldl toneStep (some false)

/-- The tone events alternate, starting with `ToneStart`, and tell whether ST is 0 (R44, R288). -/
abbrev State.ToneInv (s : State) : Prop := toneAfter s.events = some s.toneOn

/-- The mask and match of the listed instructions 00E0 to 8xyE (R100, opcode_table.json). -/
def listedRowsLow : List (Word × Word) :=
  [(0xFFFF, 0x00E0), (0xFFFF, 0x00EE), (0xF000, 0x1000), (0xF000, 0x2000),
   (0xF000, 0x3000), (0xF000, 0x4000), (0xF00F, 0x5000), (0xF000, 0x6000),
   (0xF000, 0x7000), (0xF00F, 0x8000), (0xF00F, 0x8001), (0xF00F, 0x8002),
   (0xF00F, 0x8003), (0xF00F, 0x8004), (0xF00F, 0x8005), (0xF00F, 0x8006),
   (0xF00F, 0x8007), (0xF00F, 0x800E)]

/-- The mask and match of the listed instructions 9xy0 to Fx65 (R100, opcode_table.json). -/
def listedRowsHigh : List (Word × Word) :=
  [(0xF00F, 0x9000), (0xF000, 0xA000), (0xF000, 0xB000), (0xF000, 0xC000),
   (0xF000, 0xD000), (0xF0FF, 0xE09E), (0xF0FF, 0xE0A1), (0xF0FF, 0xF007),
   (0xF0FF, 0xF00A), (0xF0FF, 0xF015), (0xF0FF, 0xF018), (0xF0FF, 0xF01E),
   (0xF0FF, 0xF029), (0xF0FF, 0xF033), (0xF0FF, 0xF055), (0xF0FF, 0xF065)]

/-- No row of the 34 listed instructions matches the word: a no-op word (R102). -/
abbrev Unlisted (w : Word) : Prop := ∀ row ∈ listedRowsLow ++ listedRowsHigh, w &&& row.1 ≠ row.2

/-- Every word that matches the row `mask`, `mtch` decodes to `f` of that word (R93, R100). -/
abbrev RowDecodes (mask mtch : Word) (f : Word → Instr) : Prop := ∀ w : Word, w &&& mask = mtch → decodeWord w = f w

/-- The general registers that an instruction may write while it executes (R24). -/
def writesV : Instr → Reg → Bool
  | .ldImm x _, r => r == x
  | .addImm x _, r => r == x
  | .ldReg x _, r => r == x
  | .orReg x _, r => r == x
  | .andReg x _, r => r == x
  | .xorReg x _, r => r == x
  | .addReg x _, r => r == x || r == 15
  | .sub x _, r => r == x || r == 15
  | .shr x _, r => r == x || r == 15
  | .subn x _, r => r == x || r == 15
  | .shl x _, r => r == x || r == 15
  | .rnd x _, r => r == x
  | .drw _ _ _, r => r == 15
  | .ldVxDt x, r => r == x
  | .ldVxMem x, r => r.val ≤ x.val
  | .cls, _ => false
  | .ret, _ => false
  | .jp _, _ => false
  | .call _, _ => false
  | .seImm _ _, _ => false
  | .sneImm _ _, _ => false
  | .seReg _ _, _ => false
  | .sneReg _ _, _ => false
  | .ldI _, _ => false
  | .jpV0 _, _ => false
  | .skp _, _ => false
  | .sknp _, _ => false
  | .ldVxK _, _ => false
  | .ldDt _, _ => false
  | .ldSt _, _ => false
  | .addI _, _ => false
  | .ldF _, _ => false
  | .ldB _, _ => false
  | .ldMemVx _, _ => false
  | .nop0 _, _ => false
  | .nop5 _ _ _, _ => false
  | .nop8 _ _ _, _ => false
  | .nop9 _ _ _, _ => false
  | .nopE _ _, _ => false
  | .nopF _ _, _ => false

/-- Some 1 bit of the `n`-row sprite at I, drawn at column Vx and row Vy, falls on pixel (`c`, `r`): row `k` of the sprite
is the byte at I + k, its column `j` is bit 7 - `j`, and both coordinates wrap (R252, R253). -/
abbrev SpriteBit (s : State) (x y : Reg) (n : Nibble) (c : Fin 64) (r : Fin 32) : Prop :=
  ∃ k < n.toNat, ∃ j < 8, (Memory.read s.mem (s.i.toNat + k)).getLsbD (7 - j) = true ∧
    ((s.readV x).toNat + j) % 64 = c.val ∧ ((s.readV y).toNat + k) % 32 = r.val

/-- The byte at `a` after Fx55 with I + x in range: V0 to Vx at I to I + x, any other byte as it was (R224). -/
def State.byteAfterStore (s : State) (x : Reg) (a : Nat) : Byte :=
  if h : s.i.toNat ≤ a ∧ a ≤ s.i.toNat + x.val then s.readV ⟨a - s.i.toNat, by have := x.isLt; omega⟩
  else Memory.read s.mem a

/-- The byte at `a` after Fx33 with I + 2 in range: hundreds, tens and ones of Vx at I, I + 1 and I + 2, any other byte as
it was (R223). -/
def State.byteAfterDigits (s : State) (x : Reg) (a : Nat) : Byte :=
  if a = s.i.toNat then BitVec.ofNat 8 ((s.readV x).toNat / 100)
  else if a = s.i.toNat + 1 then BitVec.ofNat 8 ((s.readV x).toNat / 10 % 10)
  else if a = s.i.toNat + 2 then BitVec.ofNat 8 ((s.readV x).toNat % 10)
  else Memory.read s.mem a

/-- The next step is the loop's, and `rest` is what stays scheduled after it. -/
abbrev State.LoopNext (s : State) (rest : List Turn) : Prop :=
  (s.schedule = [] ∧ rest = []) ∨ s.schedule = .loop :: rest

end Sys2Proof.Machine
end

