-- ==== Sys2Proof/Certificates/Slice0/Obligations.lean ====
section
/-! DEFINITION. The statements for the provers, each from the rules of spec/ that its docstring names. A next state `t` is
given by what its fields read as and by `t = { s with f := t.f, … }`: every field that is not named is as it was. -/
open Sys2Proof Sys2Proof.Machine

/-! Encoding -/

/-- Words of all sixteen families, written out from the encodings of R93 and R100, decode to their instructions (R92 gives
D123 and C798). That 5121, E19F, F266, 8128, 9121 and 0000 are no-op words is the spec's decision D9. -/
def Obligations.WordsOfEveryFamilyDecode : Prop :=
  decodeWord 0x00E0 = .cls ∧ decodeWord 0x00EE = .ret ∧ decodeWord 0x0000 = .nop0 0x000 ∧
  decodeWord 0x1ABC = .jp 0xABC ∧ decodeWord 0x2210 = .call 0x210 ∧ decodeWord 0x3342 = .seImm 3 0x42 ∧
  decodeWord 0x4342 = .sneImm 3 0x42 ∧ decodeWord 0x5120 = .seReg 1 2 ∧ decodeWord 0x5121 = .nop5 1 2 0x1 ∧
  decodeWord 0x6A9C = .ldImm 10 0x9C ∧ decodeWord 0x71FF = .addImm 1 0xFF ∧ decodeWord 0x8AB6 = .shr 10 11 ∧
  decodeWord 0x8128 = .nop8 1 2 0x8 ∧ decodeWord 0x9120 = .sneReg 1 2 ∧ decodeWord 0x9121 = .nop9 1 2 0x1 ∧
  decodeWord 0xA300 = .ldI 0x300 ∧ decodeWord 0xB300 = .jpV0 0x300 ∧ decodeWord 0xC798 = .rnd 7 0x98 ∧
  decodeWord 0xD123 = .drw 1 2 0x3 ∧ decodeWord 0xE29E = .skp 2 ∧ decodeWord 0xE19F = .nopE 1 0x9F ∧
  decodeWord 0xF265 = .ldVxMem 2 ∧ decodeWord 0xF266 = .nopF 2 0x66

/-- The six fields of R91 are the bit ranges it names, `kk` is `y ++ n` and `nnn` is `x ++ kk`; the word fetched from two
bytes has the first in bits 15 to 8 (R66). -/
def Obligations.FieldsAreTheBitRanges : Prop :=
  (∀ w : Word, (fieldFamily w).toNat = w.toNat / 4096 ∧ (fieldX w).val = w.toNat / 256 % 16 ∧
    (fieldY w).val = w.toNat / 16 % 16 ∧ (fieldKk w).toNat = w.toNat % 256 ∧ (fieldN w).toNat = w.toNat % 16 ∧
    (fieldNnn w).toNat = w.toNat % 4096 ∧ (fieldKk w).toNat = (fieldY w).val * 16 + (fieldN w).toNat ∧
    (fieldNnn w).toNat = (fieldX w).val * 256 + (fieldKk w).toNat) ∧
  (∀ hi lo : Byte, (wordOfBytes hi lo).toNat = hi.toNat * 256 + lo.toNat)

/-- Decoding the bytes of a well-formed instruction gives it back, with every operand at every value, and consumes
exactly its two bytes (R90, R93, R100). -/
def Obligations.DecodeOfEncodeIsTheInstruction : Prop :=
  ∀ (i : Instr) (rest : List Byte), i.wellFormed = true → decode (encode i ++ rest) = .ok (i, rest)

/-- Every word decodes to a well-formed instruction whose word it is: no word is refused and no bit is dropped
(R101, R128). -/
def Obligations.EncodeOfDecodeIsTheWord : Prop :=
  ∀ w : Word, (decodeWord w).wellFormed = true ∧ encodeWord (decodeWord w) = w

/-- A word that none of the 34 rows matches executes as a no-op: the cycle advances PC by 2 and changes nothing else
(R102, R125; which words these are is the spec's decision D9). The turn taken also leaves the model's schedule (log entry
1). -/
def Obligations.UnlistedWordsOnlyAdvancePc : Prop :=
  ∀ (s : State) (rest : List Turn), s.LoopReady → s.LoopNext rest → s.pc.toNat < 4095 →
    Unlisted (Memory.readWord s.mem s.pc.toNat) →
    step s = .next { s with pc := s.pc + 2#16, schedule := rest }

/-- The six no-op instructions complete with nothing changed, PC staying as fetch left it (R125). -/
def Obligations.NoOpsChangeNothing : Prop :=
  ∀ (s : State) (x y : Reg) (n : Nibble) (kk : Byte) (nnn : Addr12),
    exec (.nop0 nnn) s = .next s ∧ exec (.nop5 x y n) s = .next s ∧ exec (.nop8 x y n) s = .next s ∧
    exec (.nop9 x y n) s = .next s ∧ exec (.nopE x kk) s = .next s ∧ exec (.nopF x kk) s = .next s

/-! The cycle -/

/-- When it is the loop's turn and the bytes at PC decode to `i`, the step is `i` executed with PC advanced by 2 and the
taken turn gone from the model's schedule (R121; log entry 1). -/
def Obligations.StepRunsTheDecodedInstruction : Prop :=
  ∀ (s : State) (rest : List Turn) (i : Instr) (more : List Byte), s.LoopReady → s.LoopNext rest →
    s.pc.toNat < 4095 → i.wellFormed = true →
    decode [Memory.read s.mem s.pc.toNat, Memory.read s.mem (s.pc.toNat + 1)] = .ok (i, more) →
    step s = exec i { s with pc := s.pc + 2#16, schedule := rest }

/-- A cycle with PC at 4095 or more halts with `PcOutOfRange`, the record holding PC and no word, and changes nothing
else but the model's schedule (log entry 1) (R122, R301; PC = 4095 is the spec's decision D5). -/
def Obligations.PcOutOfRangeHalts : Prop :=
  ∀ (s : State) (rest : List Turn), s.LoopReady → s.LoopNext rest → 4095 ≤ s.pc.toNat →
    step s = .next { s with
      life := .stopped, stop := some ⟨.pcOutOfRange, s.pc, none⟩, schedule := rest }

/-- On the loop's turn, a legal state has a next state exactly when LIFE = Running and WAIT = none (R120): the loop has no
step in Ready, in Stopped or during a key-wait, and in every other legal state it has one. -/
def Obligations.LoopStepsExactlyWhenReady : Prop :=
  ∀ (s : State) (rest : List Turn), s.Inv → s.LoopNext rest → ((∃ t, step s = .next t) ↔ s.LoopReady)

/-! Control transfer -/

/-- 1nnn sets PC to the low 12 bits of the word and changes nothing else (R151). -/
def Obligations.JumpSetsPcToNnn : Prop :=
  RowDecodes 0xF000 0x1000 (fun w => .jp (fieldNnn w)) ∧
  ∀ (s : State) (nnn : Addr12), ∃ t, exec (.jp nnn) s = .next t ∧
    t = { s with pc := t.pc } ∧ t.pc.toNat = nnn.toNat

/-- Bnnn sets PC to V0 + nnn, not reduced to 12 bits, and changes nothing else (R153; the spec's decision D42). -/
def Obligations.JumpPlusV0SetsPcToTheSum : Prop :=
  RowDecodes 0xF000 0xB000 (fun w => .jpV0 (fieldNnn w)) ∧
  ∀ (s : State) (nnn : Addr12), ∃ t, exec (.jpV0 nnn) s = .next t ∧
    t = { s with pc := t.pc } ∧ t.pc.toNat = nnn.toNat + (s.readV 0).toNat

/-- 2nnn with room on the stack pushes PC (the address after the call), raises SP by one and sets PC to nnn, nothing else;
with 16 entries it faults with `StackOverflow` and changes nothing but LIFE and STOP (R34, R152). What the fault leaves is
the spec's decision D22; that its record holds PC - 2 and the word encoded from the instruction is the model's deduction
(log entry 11). -/
def Obligations.CallPushesPcAndJumps : Prop :=
  RowDecodes 0xF000 0x2000 (fun w => .call (fieldNnn w)) ∧
  (∀ (s : State) (nnn : Addr12), s.sp.toNat < 16 → ∃ t, exec (.call nnn) s = .next t ∧
    t = { s with stack := t.stack, sp := t.sp, pc := t.pc } ∧
    t.sp.toNat = s.sp.toNat + 1 ∧ t.pc.toNat = nnn.toNat ∧
    ∀ j : Fin 16, t.stack[j.val] = if j.val = s.sp.toNat then s.pc else s.stack[j.val]) ∧
  (∀ (s : State) (nnn : Addr12), s.sp.toNat = 16 → exec (.call nnn) s = .next { s with
    life := .stopped, stop := some ⟨.stackOverflow, s.pc - 2#16, some (encodeWord (.call nnn))⟩ })

/-- 00EE with an entry on the stack lowers SP by one and sets PC to the entry popped, nothing else (the slot keeps its
value); on an empty stack it faults with `StackUnderflow` and changes nothing but LIFE and STOP (R35, R150). What the fault leaves
is the spec's decision D22; that its record holds the address PC - 2 is the model's deduction (log entry 11). -/
def Obligations.ReturnPopsIntoPc : Prop :=
  decodeWord 0x00EE = .ret ∧
  (∀ (s : State) (j : Fin 16), s.sp.toNat = j.val + 1 → ∃ t, exec .ret s = .next t ∧
    t = { s with sp := t.sp, pc := s.stack[j.val] } ∧ t.sp.toNat = j.val) ∧
  (∀ s : State, s.sp.toNat = 0 → exec .ret s = .next { s with
    life := .stopped, stop := some ⟨.stackUnderflow, s.pc - 2#16, some 0x00EE#16⟩ })

/-- The MODEL's choice (log entry 10): with SP above 16, which no run reaches (R39), 2nnn and 00EE stop by name. -/
def Obligations.SpAboveSixteenStopsByName : Prop :=
  ∀ (s : State) (nnn : Addr12), 16 < s.sp.toNat →
    exec (.call nnn) s = .fault .spOutOfRange ∧ exec .ret s = .fault .spOutOfRange

/-- A call and then a return give back PC and SP; only the slot pushed to may differ (95_test_vectors.md A10). -/
def Obligations.ReturnUndoesCall : Prop :=
  ∀ (s : State) (nnn : Addr12), s.sp.toNat < 16 → ∃ t u, exec (.call nnn) s = .next t ∧ exec .ret t = .next u ∧
    u = { s with stack := u.stack } ∧
    ∀ j : Fin 16, j.val ≠ s.sp.toNat → u.stack[j.val] = s.stack[j.val]

/-- 3xkk and 4xkk add 2 to PC exactly when Vx equals kk, or differs from it, and change nothing else (R154, R155). -/
def Obligations.ImmediateSkips : Prop :=
  RowDecodes 0xF000 0x3000 (fun w => .seImm (fieldX w) (fieldKk w)) ∧
  RowDecodes 0xF000 0x4000 (fun w => .sneImm (fieldX w) (fieldKk w)) ∧
  ∀ (s : State) (x : Reg) (kk : Byte),
    exec (.seImm x kk) s = .next { s with
      pc := if (s.readV x).toNat = kk.toNat then s.pc + 2#16 else s.pc } ∧
    exec (.sneImm x kk) s = .next { s with
      pc := if (s.readV x).toNat = kk.toNat then s.pc else s.pc + 2#16 }

/-- 5xy0 and 9xy0 add 2 to PC exactly when Vx equals Vy, or differs from it, and change nothing else (R156, R157). -/
def Obligations.RegisterSkips : Prop :=
  RowDecodes 0xF00F 0x5000 (fun w => .seReg (fieldX w) (fieldY w)) ∧
  RowDecodes 0xF00F 0x9000 (fun w => .sneReg (fieldX w) (fieldY w)) ∧
  ∀ (s : State) (x y : Reg),
    exec (.seReg x y) s = .next { s with
      pc := if (s.readV x).toNat = (s.readV y).toNat then s.pc + 2#16 else s.pc } ∧
    exec (.sneReg x y) s = .next { s with
      pc := if (s.readV x).toNat = (s.readV y).toNat then s.pc else s.pc + 2#16 }

/-- Ex9E and ExA1 add 2 to PC exactly when the key Vx is down, or is not, and change nothing else; a Vx of 16 or more names
no key (R270, R271; the last is the spec's decision D15). -/
def Obligations.KeySkips : Prop :=
  RowDecodes 0xF0FF 0xE09E (fun w => .skp (fieldX w)) ∧ RowDecodes 0xF0FF 0xE0A1 (fun w => .sknp (fieldX w)) ∧
  ∀ (s : State) (x : Reg), ∃ t u, exec (.skp x) s = .next t ∧ exec (.sknp x) s = .next u ∧
    t = { s with pc := t.pc } ∧ u = { s with pc := u.pc } ∧
    ((∃ k : Key, (s.readV x).toNat = k.val ∧ s.keys[k.val] = true) → t.pc = s.pc + 2#16 ∧ u.pc = s.pc) ∧
    ((∀ k : Key, (s.readV x).toNat = k.val → s.keys[k.val] = false) → t.pc = s.pc ∧ u.pc = s.pc + 2#16)

/-! Registers and arithmetic -/

/-- 6xkk writes kk to Vx and 8xy0 writes Vy to Vx; no other register and no other field changes (R181, R183). -/
def Obligations.LoadByteAndCopy : Prop :=
  RowDecodes 0xF000 0x6000 (fun w => .ldImm (fieldX w) (fieldKk w)) ∧
  RowDecodes 0xF00F 0x8000 (fun w => .ldReg (fieldX w) (fieldY w)) ∧
  (∀ (s : State) (x : Reg) (kk : Byte), ∃ t, exec (.ldImm x kk) s = .next t ∧ t = { s with v := t.v } ∧
    ∀ r, t.readV r = if r = x then kk else s.readV r) ∧
  (∀ (s : State) (x y : Reg), ∃ t, exec (.ldReg x y) s = .next t ∧ t = { s with v := t.v } ∧
    ∀ r, t.readV r = if r = x then s.readV y else s.readV r)

/-- 7xkk adds kk to Vx modulo 256; every other register, VF included, and every other field is as it was
(R182; no flag is the spec's decision D13). -/
def Obligations.AddByteSetsNoFlag : Prop :=
  RowDecodes 0xF000 0x7000 (fun w => .addImm (fieldX w) (fieldKk w)) ∧
  ∀ (s : State) (x : Reg) (kk : Byte), ∃ t, exec (.addImm x kk) s = .next t ∧ t = { s with v := t.v } ∧
    ∀ r, (t.readV r).toNat = if r = x then ((s.readV x).toNat + kk.toNat) % 256 else (s.readV r).toNat

/-- 8xy1, 8xy2 and 8xy3 write the bitwise OR, AND and XOR of Vx and Vy to Vx, bit by bit; every other register, VF
included, and every other field is as it was (R184 to R186; no flag is the spec's decision D13). -/
def Obligations.LogicSetsNoFlag : Prop :=
  RowDecodes 0xF00F 0x8001 (fun w => .orReg (fieldX w) (fieldY w)) ∧
  RowDecodes 0xF00F 0x8002 (fun w => .andReg (fieldX w) (fieldY w)) ∧
  RowDecodes 0xF00F 0x8003 (fun w => .xorReg (fieldX w) (fieldY w)) ∧
  ∀ (s : State) (x y : Reg), ∃ t u w,
    exec (.orReg x y) s = .next t ∧ exec (.andReg x y) s = .next u ∧ exec (.xorReg x y) s = .next w ∧
    t = { s with v := t.v } ∧ u = { s with v := u.v } ∧ w = { s with v := w.v } ∧
    (∀ r, r ≠ x → t.readV r = s.readV r ∧ u.readV r = s.readV r ∧ w.readV r = s.readV r) ∧
    ∀ k < 8, (t.readV x).getLsbD k = ((s.readV x).getLsbD k || (s.readV y).getLsbD k) ∧
      (u.readV x).getLsbD k = ((s.readV x).getLsbD k && (s.readV y).getLsbD k) ∧
      (w.readV x).getLsbD k = ((s.readV x).getLsbD k != (s.readV y).getLsbD k)

/-- 8xy4 writes the sum modulo 256 to Vx and the carry (the sum exceeds 255) to VF, the sum when x = 15; nothing else
changes. Operands are the values before the instruction (R187; the order R180 is the spec's decision D3). -/
def Obligations.AddSetsCarryThenSum : Prop :=
  RowDecodes 0xF00F 0x8004 (fun w => .addReg (fieldX w) (fieldY w)) ∧
  ∀ (s : State) (x y : Reg), ∃ t, exec (.addReg x y) s = .next t ∧ t = { s with v := t.v } ∧
    ∀ r, (t.readV r).toNat =
      if r = x then ((s.readV x).toNat + (s.readV y).toNat) % 256
      else if r = 15 then (if 255 < (s.readV x).toNat + (s.readV y).toNat then 1 else 0)
      else (s.readV r).toNat

/-- 8xy5 and 8xy7 write Vx - Vy and Vy - Vx modulo 256 to Vx, and to VF whether the first operand is STRICTLY greater, the
difference when x = 15; nothing else changes (R188, R190; the order R180 is the spec's decision D3). -/
def Obligations.SubtractSetsStrictGreaterThenDifference : Prop :=
  RowDecodes 0xF00F 0x8005 (fun w => .sub (fieldX w) (fieldY w)) ∧
  RowDecodes 0xF00F 0x8007 (fun w => .subn (fieldX w) (fieldY w)) ∧
  ∀ (s : State) (x y : Reg), ∃ t u, exec (.sub x y) s = .next t ∧ exec (.subn x y) s = .next u ∧
    t = { s with v := t.v } ∧ u = { s with v := u.v } ∧
    (∀ r, (t.readV r).toNat =
      if r = x then ((s.readV x).toNat + 256 - (s.readV y).toNat) % 256
      else if r = 15 then (if (s.readV y).toNat < (s.readV x).toNat then 1 else 0)
      else (s.readV r).toNat) ∧
    ∀ r, (u.readV r).toNat =
      if r = x then ((s.readV y).toNat + 256 - (s.readV x).toNat) % 256
      else if r = 15 then (if (s.readV x).toNat < (s.readV y).toNat then 1 else 0)
      else (s.readV r).toNat

/-- 8xy6 halves Vx rounding down and 8xyE doubles it modulo 256; VF takes bit 0 or bit 7 of the old Vx, or the result when
x = 15; Vy is not read and nothing else changes (R189, R191; R95 is the spec's decision D43, R180 its decision D3). -/
def Obligations.ShiftsReportTheBitShiftedOut : Prop :=
  RowDecodes 0xF00F 0x8006 (fun w => .shr (fieldX w) (fieldY w)) ∧
  RowDecodes 0xF00F 0x800E (fun w => .shl (fieldX w) (fieldY w)) ∧
  ∀ (s : State) (x y : Reg), ∃ t u, exec (.shr x y) s = .next t ∧ exec (.shl x y) s = .next u ∧
    t = { s with v := t.v } ∧ u = { s with v := u.v } ∧
    (∀ r, (t.readV r).toNat =
      if r = x then (s.readV x).toNat / 2 else if r = 15 then (s.readV x).toNat % 2 else (s.readV r).toNat) ∧
    ∀ r, (u.readV r).toNat =
      if r = x then (s.readV x).toNat * 2 % 256 else if r = 15 then (s.readV x).toNat / 128 else (s.readV r).toNat

/-- Cxkk draws exactly one byte and writes it masked with kk to Vx; nothing else changes. The byte is the free value of the
draw counter, so this holds whatever byte is drawn (R192; the spec's decision D37, log entry 8). -/
def Obligations.RandomIsOneMaskedDraw : Prop :=
  RowDecodes 0xF000 0xC000 (fun w => .rnd (fieldX w) (fieldKk w)) ∧
  ∀ (s : State) (x : Reg) (kk : Byte), ∃ t, exec (.rnd x kk) s = .next t ∧
    t = { s with v := t.v, draws := s.draws + 1 } ∧
    (∀ r, r ≠ x → t.readV r = s.readV r) ∧
    ∀ k < 8, (t.readV x).getLsbD k = ((Config.randByte s.draws).getLsbD k && kk.getLsbD k)

/-! The address register and memory -/

/-- Annn sets I to nnn and changes nothing else (R220). -/
def Obligations.LoadAddressSetsI : Prop :=
  RowDecodes 0xF000 0xA000 (fun w => .ldI (fieldNnn w)) ∧
  ∀ (s : State) (nnn : Addr12), ∃ t, exec (.ldI nnn) s = .next t ∧
    t = { s with i := t.i } ∧ t.i.toNat = nnn.toNat

/-- Fx1E adds Vx to I modulo 65536 and Fx29 sets I to 5 Vx with no masking; nothing else changes, VF included
(R221, R222; the spec's decisions D11 and D12). -/
def Obligations.AddToIAndGlyphAddress : Prop :=
  RowDecodes 0xF0FF 0xF01E (fun w => .addI (fieldX w)) ∧ RowDecodes 0xF0FF 0xF029 (fun w => .ldF (fieldX w)) ∧
  ∀ (s : State) (x : Reg), ∃ t u, exec (.addI x) s = .next t ∧ exec (.ldF x) s = .next u ∧
    t = { s with i := t.i } ∧ u = { s with i := u.i } ∧
    t.i.toNat = (s.i.toNat + (s.readV x).toNat) % 65536 ∧ u.i.toNat = (s.readV x).toNat * 5

/-- Fx33 with I + 2 in range stores hundreds, tens and ones of Vx at I, I + 1 and I + 2; every other byte, I and every other
field is as it was (R223; I unchanged is the spec's decision D10). -/
def Obligations.BcdStoresThreeDigits : Prop :=
  RowDecodes 0xF0FF 0xF033 (fun w => .ldB (fieldX w)) ∧
  ∀ (s : State) (x : Reg), Memory.wf s.mem → s.i.toNat + 2 < 4096 → ∃ t, exec (.ldB x) s = .next t ∧
    t = { s with mem := t.mem } ∧
    (Memory.read t.mem s.i.toNat).toNat = (s.readV x).toNat / 100 ∧
    (Memory.read t.mem (s.i.toNat + 1)).toNat = (s.readV x).toNat / 10 % 10 ∧
    (Memory.read t.mem (s.i.toNat + 2)).toNat = (s.readV x).toNat % 10 ∧
    ∀ a, (a < s.i.toNat ∨ s.i.toNat + 2 < a) → Memory.read t.mem a = Memory.read s.mem a

/-- Fx55 with I + x in range stores V0 to Vx at I to I + x and advances I by x + 1; every other byte and every other field
is as it was (R224; the amount is the spec's decision D10). -/
def Obligations.StoreRegistersAdvancesI : Prop :=
  RowDecodes 0xF0FF 0xF055 (fun w => .ldMemVx (fieldX w)) ∧
  ∀ (s : State) (x : Reg), Memory.wf s.mem → s.i.toNat + x.val < 4096 → ∃ t, exec (.ldMemVx x) s = .next t ∧
    t = { s with mem := t.mem, i := t.i } ∧ t.i.toNat = s.i.toNat + x.val + 1 ∧
    (∀ r : Reg, r.val ≤ x.val → Memory.read t.mem (s.i.toNat + r.val) = s.readV r) ∧
    ∀ a, (a < s.i.toNat ∨ s.i.toNat + x.val < a) → Memory.read t.mem a = Memory.read s.mem a

/-- Fx65 with I + x in range loads V0 to Vx from I to I + x and advances I by x + 1; every other register and every other
field is as it was (R225; the amount is the spec's decision D10). -/
def Obligations.LoadRegistersAdvancesI : Prop :=
  RowDecodes 0xF0FF 0xF065 (fun w => .ldVxMem (fieldX w)) ∧
  ∀ (s : State) (x : Reg), s.i.toNat + x.val < 4096 → ∃ t, exec (.ldVxMem x) s = .next t ∧
    t = { s with v := t.v, i := t.i } ∧ t.i.toNat = s.i.toNat + x.val + 1 ∧
    ∀ r : Reg, t.readV r = if r.val ≤ x.val then Memory.read s.mem (s.i.toNat + r.val) else s.readV r

/-- If any address that Fx33, Fx55, Fx65 or Dxyn would access is 4096 or more, the instruction faults with `MemoryFault` and
changes nothing but LIFE and STOP (R64, R303, R306; the spec's decisions D4, D22, D41). That the record holds PC - 2 and
the word encoded from the instruction is the model's deduction (log entry 11). -/
def Obligations.OutOfRangeAccessFaults : Prop :=
  ∀ (s : State) (x y : Reg) (n : Nibble),
    (4096 ≤ s.i.toNat + 2 → exec (.ldB x) s = .next { s with
      life := .stopped, stop := some ⟨.memoryFault, s.pc - 2#16, some (encodeWord (.ldB x))⟩ }) ∧
    (4096 ≤ s.i.toNat + x.val → exec (.ldMemVx x) s = .next { s with
      life := .stopped, stop := some ⟨.memoryFault, s.pc - 2#16, some (encodeWord (.ldMemVx x))⟩ }) ∧
    (4096 ≤ s.i.toNat + x.val → exec (.ldVxMem x) s = .next { s with
      life := .stopped, stop := some ⟨.memoryFault, s.pc - 2#16, some (encodeWord (.ldVxMem x))⟩ }) ∧
    (0 < n.toNat → 4096 ≤ s.i.toNat + n.toNat - 1 → exec (.drw x y n) s = .next { s with
      life := .stopped, stop := some ⟨.memoryFault, s.pc - 2#16, some (encodeWord (.drw x y n))⟩ })

/-- The very next cycle runs the word that memory holds at PC after Fx55 or Fx33: a byte that the instruction stored
there, one of the two or both, is fetched as stored, and any other byte as it was (R76, R346; the spec's decision D29).
The schedule that names no other turn is the model's (log entry 1). -/
def Obligations.StoredBytesAreFetchedNext : Prop :=
  ∀ (s : State) (x : Reg), s.LoopReady → s.schedule = [] → Memory.wf s.mem → s.pc.toNat < 4095 →
    (s.i.toNat + x.val < 4096 → ∃ t, exec (.ldMemVx x) s = .next t ∧
      step t = exec (decodeWord (wordOfBytes (s.byteAfterStore x s.pc.toNat) (s.byteAfterStore x (s.pc.toNat + 1))))
        { t with pc := t.pc + 2#16 }) ∧
    (s.i.toNat + 2 < 4096 → ∃ t, exec (.ldB x) s = .next t ∧
      step t = exec (decodeWord (wordOfBytes (s.byteAfterDigits x s.pc.toNat) (s.byteAfterDigits x (s.pc.toNat + 1))))
        { t with pc := t.pc + 2#16 })

/-! Display -/

/-- 00E0 turns every pixel off and hands the whole grid to the Display Sink; nothing else changes, VF included (R251). That
the event is appended to the output trace is the spec's decision D20 (the field that holds it is log entry 9's). -/
def Obligations.ClearTurnsEveryPixelOff : Prop :=
  decodeWord 0x00E0 = .cls ∧
  ∀ s : State, ∃ t, exec .cls s = .next t ∧ t = { s with fb := t.fb, events := t.events } ∧
    (∀ c r, pixel t.fb c r = false) ∧ t.events = s.events ++ [.display t.fb]

/-- Dxyn with its sprite in range inverts exactly the pixels that a 1 bit of the sprite falls on, both coordinates
wrapping; VF is 1 exactly when one of them was on, else 0; the grid that results goes to the Display Sink; nothing else
changes (R252 to R255; the spec's decisions D7, D8, D14, D20). -/
def Obligations.DrawInvertsTheSpritePixels : Prop :=
  RowDecodes 0xF000 0xD000 (fun w => .drw (fieldX w) (fieldY w) (fieldN w)) ∧
  ∀ (s : State) (x y : Reg) (n : Nibble), (n.toNat = 0 ∨ s.i.toNat + n.toNat - 1 < 4096) →
    ∃ t, exec (.drw x y n) s = .next t ∧
      t = { s with v := t.v, fb := t.fb, events := t.events } ∧
      (∀ c r, SpriteBit s x y n c r → pixel t.fb c r = !pixel s.fb c r) ∧
      (∀ c r, ¬ SpriteBit s x y n c r → pixel t.fb c r = pixel s.fb c r) ∧
      ((∃ c r, SpriteBit s x y n c r ∧ pixel s.fb c r = true) → t.readV 15 = 1#8) ∧
      ((∀ c r, SpriteBit s x y n c r → pixel s.fb c r = false) → t.readV 15 = 0#8) ∧
      (∀ r, r ≠ 15 → t.readV r = s.readV r) ∧ t.events = s.events ++ [.display t.fb]

/-- Drawing the same sprite twice over gives back the grid: XOR is its own inverse. The second VF says whether the sprite
has a 1 bit that fell on a pixel that was off before (R252, R254; the spec's decision D7). -/
def Obligations.DrawingTwiceRestoresTheGrid : Prop :=
  ∀ (s : State) (x y : Reg) (n : Nibble), x ≠ 15 → y ≠ 15 → (n.toNat = 0 ∨ s.i.toNat + n.toNat - 1 < 4096) →
    ∃ t u, exec (.drw x y n) s = .next t ∧ exec (.drw x y n) t = .next u ∧ u.fb = s.fb ∧
      (u.readV 15 = 1#8 ↔ ∃ c r, SpriteBit s x y n c r ∧ pixel s.fb c r = false)

/-! Timers, keys and the key-wait -/

/-- Fx07 writes DT to Vx, and Fx15 writes Vx to DT; nothing else changes (R272, R273). -/
def Obligations.DelayTimerReadAndWrite : Prop :=
  RowDecodes 0xF0FF 0xF007 (fun w => .ldVxDt (fieldX w)) ∧ RowDecodes 0xF0FF 0xF015 (fun w => .ldDt (fieldX w)) ∧
  ∀ (s : State) (x : Reg), exec (.ldDt x) s = .next { s with dt := s.readV x } ∧
    ∃ t, exec (.ldVxDt x) s = .next t ∧ t = { s with v := t.v } ∧
      ∀ r, t.readV r = if r = x then s.dt else s.readV r

/-- Fx18 writes Vx to ST and emits `ToneStart` on the edge from zero, `ToneStop` on the edge to zero and nothing otherwise;
nothing else changes (R274). That Fx18's transitions emit the tone events is the spec's decision D19. -/
def Obligations.SoundTimerWriteEmitsTheEdge : Prop :=
  RowDecodes 0xF0FF 0xF018 (fun w => .ldSt (fieldX w)) ∧
  ∀ (s : State) (x : Reg), ∃ t, exec (.ldSt x) s = .next t ∧
    t = { s with st := s.readV x, events := t.events } ∧
    (s.st.toNat = 0 → (s.readV x).toNat ≠ 0 → t.events = s.events ++ [.toneStart]) ∧
    (s.st.toNat ≠ 0 → (s.readV x).toNat = 0 → t.events = s.events ++ [.toneStop]) ∧
    ((s.st.toNat = 0 ↔ (s.readV x).toNat = 0) → t.events = s.events)

/-- Fx0A suspends the loop with WAIT = x and changes nothing else, whatever keys are already down, and the loop's next
turn has no step (R275, R277; the spec's decision D16). That a turn without a step is answered by the named fault
`loopWaiting` is the MODEL's choice (log entry 2). -/
def Obligations.KeyWaitSuspendsTheLoop : Prop :=
  RowDecodes 0xF0FF 0xF00A (fun w => .ldVxK (fieldX w)) ∧
  ∀ (s : State) (x : Reg), exec (.ldVxK x) s = .next { s with wait := some x } ∧
    (s.life = .running → s.schedule = [] → step { s with wait := some x } = .fault .loopWaiting)

/-- A key press marks the key as down and as the last pressed; while Running in a key-wait it also writes its code to the
waiting register and ends the wait, and otherwise it changes no register; nothing else changes but the model's schedule
(log entry 1) (R276, R278; that it is allowed in every lifecycle state is the spec's decision D35). -/
def Obligations.KeyPressIsRecordedAndEndsTheWait : Prop :=
  ∀ (s : State) (k : Key) (rest : List Turn), s.schedule = .host (.keyPress k.val) :: rest →
    ∃ t, step s = .next t ∧
      t = { s with v := t.v, keys := t.keys, lastKey := some k, wait := t.wait, schedule := rest } ∧
      (∀ j : Key, t.keys[j.val] = if j = k then true else s.keys[j.val]) ∧
      (∀ x, s.life = .running → s.wait = some x → t.wait = none ∧
        ∀ r, (t.readV r).toNat = if r = x then k.val else (s.readV r).toNat) ∧
      ((s.life ≠ .running ∨ s.wait = none) → t.v = s.v ∧ t.wait = s.wait)

/-- A key release removes the key from KEYS and changes nothing else but the model's schedule (log entry 1): it ends no
wait (R279). That it is allowed in every lifecycle state is the spec's decision D35. -/
def Obligations.KeyReleaseOnlyClearsTheKey : Prop :=
  ∀ (s : State) (k : Key) (rest : List Turn), s.schedule = .host (.keyRelease k.val) :: rest →
    ∃ t, step s = .next t ∧ t = { s with keys := t.keys, schedule := rest } ∧
      ∀ j : Key, t.keys[j.val] = if j = k then false else s.keys[j.val]

/-- A key event with a code above 15 is refused and is no step (R280; the spec's decision D35). Its answer is the model's
named refusal (log entry 12). -/
def Obligations.KeyCodesAboveFifteenAreRefused : Prop :=
  ∀ (s : State) (code : Nat) (rest : List Turn), 16 ≤ code →
    (s.schedule = .host (.keyPress code) :: rest ∨ s.schedule = .host (.keyRelease code) :: rest) →
    step s = .refused .keyCodeOutOfRange

/-- A tick while Running, also during a key-wait, lowers each timer that is not zero by one, in one step, and emits
`ToneStop` exactly when ST goes from 1 to 0; nothing else changes but the model's schedule (log entry 1); outside Running
it is no step (R282 to R284, R287; the spec's decisions D18 and D45). Its answer outside Running is the model's named
refusal (log entry 12). -/
def Obligations.TickLowersBothTimers : Prop :=
  ∀ (s : State) (rest : List Turn), s.schedule = .tick :: rest →
    (s.life = .running → ∃ t, step s = .next t ∧
      t = { s with dt := t.dt, st := t.st, events := t.events, schedule := rest } ∧
      t.dt.toNat = s.dt.toNat - 1 ∧ t.st.toNat = s.st.toNat - 1 ∧
      t.events = if s.st.toNat = 1 then s.events ++ [.toneStop] else s.events) ∧
    (s.life ≠ .running → step s = .refused .tickOutsideRunning)

/-! Lifecycle, stops and the whole machine -/

/-- The table of R321 for `Start` and `Stop` in each lifecycle state; a stop in Running clears WAIT without writing the
waiting register and keeps ST, emitting nothing (R281, R289, R321; the spec's decisions D19 and D34). The turn taken also
leaves the model's schedule (log entry 1). -/
def Obligations.LifecycleTable : Prop :=
  ∀ (s : State) (rest : List Turn),
    (s.schedule = .host .start :: rest →
      step s = .next { s with life := if s.life = .ready then .running else s.life, schedule := rest }) ∧
    (s.schedule = .host .stop :: rest → s.life = .running →
      step s = .next { s with
        life := .stopped, wait := none, stop := some ⟨.stopRequested, s.pc, none⟩, schedule := rest }) ∧
    (s.schedule = .host .stop :: rest → s.life ≠ .running → step s = .next { s with schedule := rest })

/-- No step leaves Stopped: only KEYS and LASTKEY can still change, beside the model's schedule (log entry 1) (R309,
R256; that key events are taken in Stopped is the spec's decision D35). -/
def Obligations.StoppedIsFinal : Prop :=
  ∀ s t : State, s.life = .stopped → step s = .next t →
    t = { s with keys := t.keys, lastKey := t.lastKey, schedule := t.schedule }

/-- An instruction that stops the engine has made no change of its own: the state is the one fetch left, PC = a + 2, with
LIFE Stopped and a record of cause 4, 5 or 6, the address a it was fetched from and its word (R43, R303; the spec's
decision D22). The turn taken also leaves the model's schedule (log entry 1). -/
def Obligations.FaultsArePrecise : Prop :=
  ∀ (s t : State) (rest : List Turn), s.LoopReady → s.LoopNext rest → s.pc.toNat < 4095 → step s = .next t →
    t.life ≠ .running →
    ∃ c : Cause, (c = .stackOverflow ∨ c = .stackUnderflow ∨ c = .memoryFault) ∧
      t = { s with
        pc := s.pc + 2#16, life := .stopped, schedule := rest
        stop := some ⟨c, s.pc, some (Memory.readWord s.mem s.pc.toNat)⟩ }

/-- Load copies a program of at most 3584 bytes to 512 onward and leaves every other byte and every other field at its reset
value; a longer program is answered by `OversizedProgram` and no engine (R69). -/
def Obligations.LoadCopiesTheProgram : Prop :=
  (∀ bytes : List Byte, bytes.length ≤ 3584 → ∃ s, construct bytes = .loaded s ∧
    s = { State.reset with mem := s.mem } ∧ Memory.wf s.mem ∧
    (∀ j (h : j < bytes.length), Memory.read s.mem (512 + j) = bytes[j]) ∧
    ∀ a, (a < 512 ∨ 512 + bytes.length ≤ a) → Memory.read s.mem a = Memory.read State.reset.mem a) ∧
  ∀ bytes : List Byte, 3584 < bytes.length → construct bytes = .oversizedProgram

/-- Reset leaves what R50 gives: PC = 512, SP = 0, both timers 0, every pixel off, no key down, no last key, no wait, Ready,
no stop record, and glyph 0 of the font at addresses 0 to 4; the timers, FB, KEYS, LASTKEY and WAIT rest on the spec's
decision D25. The values R50 leaves open are not stated here. -/
def Obligations.ResetLeavesTheSpecValues : Prop :=
  State.reset.pc.toNat = 512 ∧ State.reset.sp.toNat = 0 ∧ State.reset.dt.toNat = 0 ∧ State.reset.st.toNat = 0 ∧
  (∀ c r, pixel State.reset.fb c r = false) ∧ (∀ k : Key, State.reset.keys[k.val] = false) ∧
  State.reset.lastKey = none ∧ State.reset.wait = none ∧ State.reset.life = .ready ∧ State.reset.stop = none ∧
  Memory.readBytes State.reset.mem 0 5 = [0xF0, 0x90, 0x90, 0x90, 0xF0]

/-- The legal-state invariant and the tone invariant hold at reset. -/
def Obligations.InvariantsHoldAtReset : Prop := State.reset.Inv ∧ State.reset.ToneInv

/-- Every step of every agent keeps the legal states: memory canonical and inside 0 to 4095, SP at most 16, PC at most
0x10FE (it never wraps), return addresses at most 0x1000, STOP none exactly while not Stopped, a wait only in Running
(R20, R27, R32, R39, R40, R43, R60). -/
def Obligations.EveryStepKeepsTheInvariant : Prop :=
  ∀ s t : State, s.Inv → step s = .next t → t.Inv

/-- Every step of every agent keeps the tone invariant: the tone events alternate, starting with `ToneStart`, and the last
one tells whether ST is 0 (R44, R288; the spec derives it from R274 and R283; events from Fx18 are its decision D19). -/
def Obligations.ToneEventsAlternate : Prop :=
  ∀ s t : State, s.ToneInv → step s = .next t → t.ToneInv

/-- Which instructions may change which field. Every field of R20 has the writers that the spec names: V those of R24 (which
register each may write is RegistersChangeOnlyAsListed), LIFE and STOP only the six instructions that can fault, KEYS and
LASTKEY none (R26, R29, R31, R37, R38, R39, R45, R62, R250, R300, R303). The clauses on `draws`, `events` and `schedule` are
about the MODEL's own fields (log entries 8, 9 and 1). -/
def Obligations.EveryFieldHasItsWriters : Prop :=
  ∀ (i : Instr) (s t : State), exec i s = .next t →
    (t.v ≠ s.v → ∃ r, writesV i r = true) ∧
    (t.life ≠ s.life ∨ t.stop ≠ s.stop → ∃ x y n nnn, i = .ret ∨ i = .call nnn ∨ i = .ldB x ∨ i = .ldMemVx x ∨
      i = .ldVxMem x ∨ i = .drw x y n) ∧
    (t.mem ≠ s.mem → ∃ x, i = .ldB x ∨ i = .ldMemVx x) ∧
    (t.i ≠ s.i → ∃ x nnn, i = .ldI nnn ∨ i = .addI x ∨ i = .ldF x ∨ i = .ldMemVx x ∨ i = .ldVxMem x) ∧
    (t.stack ≠ s.stack → ∃ nnn, i = .call nnn) ∧
    (t.sp ≠ s.sp → ∃ nnn, i = .call nnn ∨ i = .ret) ∧
    (t.dt ≠ s.dt → ∃ x, i = .ldDt x) ∧
    (t.st ≠ s.st → ∃ x, i = .ldSt x) ∧
    (t.fb ≠ s.fb → ∃ x y n, i = .cls ∨ i = .drw x y n) ∧
    (t.wait ≠ s.wait → ∃ x, i = .ldVxK x) ∧
    (t.draws ≠ s.draws → ∃ x kk, i = .rnd x kk) ∧
    (t.events ≠ s.events → ∃ x y n, i = .cls ∨ i = .drw x y n ∨ i = .ldSt x) ∧
    (t.pc ≠ s.pc → ∃ x y kk nnn, i = .ret ∨ i = .jp nnn ∨ i = .call nnn ∨ i = .jpV0 nnn ∨ i = .seImm x kk ∨
      i = .sneImm x kk ∨ i = .seReg x y ∨ i = .sneReg x y ∨ i = .skp x ∨ i = .sknp x) ∧
    t.keys = s.keys ∧ t.lastKey = s.lastKey ∧ t.schedule = s.schedule

/-- A general register that the table of R24 does not list as written by an instruction keeps its value; so VF changes only
by the instructions of R28 and those that name it as Vx (R22, R24, R28; the spec's decisions D11, D13, D40). -/
def Obligations.RegistersChangeOnlyAsListed : Prop :=
  ∀ (i : Instr) (s t : State) (r : Reg), exec i s = .next t → writesV i r = false → t.readV r = s.readV r

/-- The host reaches no memory, no pixel, no timer, no stack slot, not I, SP or PC, and no output trace; a general
register changes only by the key press that ends a wait (R323; the spec's decision D2). The turn taken also leaves the
model's schedule (log entry 1). -/
def Obligations.HostReachesOnlyItsInterface : Prop :=
  ∀ (s t : State) (e : HostEvent) (rest : List Turn), s.schedule = .host e :: rest → step s = .next t →
    t = { s with
      v := t.v, keys := t.keys, lastKey := t.lastKey, wait := t.wait, life := t.life, stop := t.stop
      schedule := rest } ∧
    (t.v ≠ s.v → s.Waiting ∧ ∃ k, e = .keyPress k)

/-- LASTKEY is not observable by a program: two states that differ only in it take the same step and differ at most in it
after (R41, R48; the spec's decision D16). -/
def Obligations.LastKeyIsNotObservable : Prop :=
  ∀ (s : State) (k : Option Key),
    (∀ t, step s = .next t → ∃ l, step { s with lastKey := k } = .next { t with lastKey := l }) ∧
    (∀ f, step s = .fault f → step { s with lastKey := k } = .fault f) ∧
    (∀ f, step s = .refused f → step { s with lastKey := k } = .refused f)

/-- The output events change nothing in the core: a step appends the same events whatever the trace held before, and
nothing else of the step depends on the trace (R51, R255, R323, R350; the spec's decision D20). -/
def Obligations.OutputTraceIsOnlyAppendedTo : Prop :=
  ∀ s t : State, step s = .next t → ∃ l, t.events = s.events ++ l ∧
    ∀ old, step { s with events := old } = .next { t with events := old ++ l }

/-! Assembly syntax -/

/-- The line of every instruction, as the table of R105 gives it, assembles to its one word; the line of a word that no row
matches is `.word` with it; a shift with one register only has y = 0 (R105, R106; the spec's decisions D33 and D9). -/
def Obligations.EveryLineAssemblesToItsWord : Prop :=
  (∀ i : Instr, i.line.assemble = some (encodeWord i)) ∧
  (∀ w : Word, Unlisted w → (decodeWord w).line = .word w) ∧
  ∀ x : Reg, (AsmLine.op .shr [.reg x]).assemble = some (encodeWord (.shr x 0)) ∧
    (AsmLine.op .shl [.reg x]).assemble = some (encodeWord (.shl x 0))

/-- 8xy6 and 8xyE encode y but do not read it: y is bits 7 to 4 of their words, and what they do is the same for every y
(R95, R105; the spec's decision D43). -/
def Obligations.ShiftsEncodeYAndDoNotReadIt : Prop :=
  (∀ x y : Reg, fieldY (encodeWord (.shr x y)) = y ∧ fieldY (encodeWord (.shl x y)) = y) ∧
  ∀ (s : State) (x y z : Reg), exec (.shr x y) s = exec (.shr x z) s ∧ exec (.shl x y) s = exec (.shl x z) s
end

