-- ==== Sys2Proof/Laws/Decode.lean ====
section
/-! SUPPORT. The fields of an encoded word (R91, R93): what each extraction gives back. -/
namespace Sys2Proof

@[simp] theorem regField_toFin (x : Reg) : (regField x).toFin = x := rfl

@[simp] theorem regField_ofToFin (b : Nibble) : regField b.toFin = b := rfl

/-- The low part of a concatenation is its second operand. -/
theorem extract_low {m n : Nat} (a : BitVec m) (b : BitVec n) : (a ++ b).extractLsb' 0 n = b := by
  apply BitVec.eq_of_getLsbD_eq
  intro i hi
  simp [BitVec.getLsbD_append, hi]

/-- The high part of a concatenation is its first operand. -/
theorem extract_high {m n : Nat} (a : BitVec m) (b : BitVec n) : (a ++ b).extractLsb' n m = a := by
  apply BitVec.eq_of_getLsbD_eq
  intro i hi
  simp [BitVec.getLsbD_append, hi]

/-- A field inside the second operand of a concatenation is a field of that operand. -/
theorem extract_inside {m n : Nat} (a : BitVec m) (b : BitVec n) (k l : Nat) (h : k + l ≤ n) :
    (a ++ b).extractLsb' k l = b.extractLsb' k l := by
  apply BitVec.eq_of_getLsbD_eq
  intro i hi
  simp only [BitVec.getLsbD_extractLsb', BitVec.getLsbD_append, hi, decide_true, Bool.true_and,
    show k + i < n by omega, ite_true]

@[simp] theorem fieldFamily_nnn (f : Nibble) (a : Addr12) : fieldFamily (encodeNnn f a) = f := extract_high f a

@[simp] theorem fieldNnn_nnn (f : Nibble) (a : Addr12) : fieldNnn (encodeNnn f a) = a := extract_low f a

@[simp] theorem fieldFamily_xkk (f : Nibble) (x : Reg) (kk : Byte) : fieldFamily (encodeXkk f x kk) = f :=
  extract_high f _

@[simp] theorem fieldX_xkk (f : Nibble) (x : Reg) (kk : Byte) : fieldX (encodeXkk f x kk) = x := by
  unfold fieldX encodeXkk
  rw [extract_inside _ _ 8 4 (by omega), extract_high (regField x) kk, regField_toFin]

@[simp] theorem fieldKk_xkk (f : Nibble) (x : Reg) (kk : Byte) : fieldKk (encodeXkk f x kk) = kk := by
  unfold fieldKk encodeXkk
  rw [extract_inside _ _ 0 8 (by omega), extract_low (regField x) kk]

@[simp] theorem fieldFamily_xyn (f : Nibble) (x y : Reg) (n : Nibble) : fieldFamily (encodeXyn f x y n) = f :=
  extract_high f _

@[simp] theorem fieldX_xyn (f : Nibble) (x y : Reg) (n : Nibble) : fieldX (encodeXyn f x y n) = x := by
  unfold fieldX encodeXyn
  rw [extract_inside _ _ 8 4 (by omega), extract_high (regField x) _, regField_toFin]

@[simp] theorem fieldY_xyn (f : Nibble) (x y : Reg) (n : Nibble) : fieldY (encodeXyn f x y n) = y := by
  unfold fieldY encodeXyn
  rw [extract_inside _ _ 4 4 (by omega), extract_inside _ _ 4 4 (by omega), extract_high (regField y) n,
    regField_toFin]

@[simp] theorem fieldN_xyn (f : Nibble) (x y : Reg) (n : Nibble) : fieldN (encodeXyn f x y n) = n := by
  unfold fieldN encodeXyn
  rw [extract_inside _ _ 0 4 (by omega), extract_inside _ _ 0 4 (by omega), extract_low (regField y) n]

/-- A word is its two parts put together. -/
theorem append_extract {m n : Nat} (w : BitVec (m + n)) : w.extractLsb' n m ++ w.extractLsb' 0 n = w := by
  apply BitVec.eq_of_getLsbD_eq
  intro i hi
  rw [BitVec.getLsbD_append]
  split
  · rename_i h; simp [h]
  · rename_i h
    rw [BitVec.getLsbD_extractLsb', show n + (i - n) = i by omega]
    simp [show i - n < m by omega]

/-- Every word is its family and `nnn` put together (R91). -/
theorem encodeNnn_fields (w : Word) : encodeNnn (fieldFamily w) (fieldNnn w) = w :=
  append_extract (m := 4) (n := 12) w

/-- A word's `nnn` is `x ++ kk` (R91). -/
theorem fieldNnn_eq (w : Word) : fieldNnn w = (regField (fieldX w) ++ fieldKk w : Addr12) := by
  apply BitVec.eq_of_getLsbD_eq
  intro i hi
  simp only [fieldNnn, fieldX, fieldKk, regField_ofToFin, BitVec.getLsbD_append, BitVec.getLsbD_extractLsb', hi]
  split
  · rename_i h; simp [h]
  · rename_i h; simp [show i - 8 < 4 by omega, show 8 + (i - 8) = i by omega]

/-- A word's `kk` is `y ++ n` (R91). -/
theorem fieldKk_eq (w : Word) : fieldKk w = (regField (fieldY w) ++ fieldN w : Byte) := by
  apply BitVec.eq_of_getLsbD_eq
  intro i hi
  simp only [fieldKk, fieldY, fieldN, regField_ofToFin, BitVec.getLsbD_append, BitVec.getLsbD_extractLsb', hi]
  split
  · rename_i h; simp [h]
  · rename_i h; simp [show i - 4 < 4 by omega, show 4 + (i - 4) = i by omega]

/-- Every word is its family, `x` and `kk` put together (R91). -/
theorem encodeXkk_fields (w : Word) : encodeXkk (fieldFamily w) (fieldX w) (fieldKk w) = w := by
  unfold encodeXkk
  rw [← fieldNnn_eq]
  exact encodeNnn_fields w

/-- Every word is its family, `x`, `y` and `n` put together (R91). -/
theorem encodeXyn_fields (w : Word) : encodeXyn (fieldFamily w) (fieldX w) (fieldY w) (fieldN w) = w := by
  unfold encodeXyn
  rw [← fieldKk_eq]
  exact encodeXkk_fields w

/-- The two bytes of a word, put together big-endian, are the word (R66). -/
@[simp] theorem wordOfBytes_bytes (w : Word) : wordOfBytes (highByte w) (lowByte w) = w :=
  append_extract (m := 8) (n := 8) w

end Sys2Proof
end

