-- ==== Sys2Proof/Laws/State.lean ====
section
/-! SUPPORT. One lemma for each field of State under each of its updates, true by rfl. -/
namespace Sys2Proof.Machine

variable (s : State)

@[simp] theorem State.writeV_v (x : Reg) (b : Byte) : (s.writeV x b).v = s.v.set x.val b x.isLt := rfl
@[simp] theorem State.writeV_i (x : Reg) (b : Byte) : (s.writeV x b).i = s.i := rfl
@[simp] theorem State.writeV_pc (x : Reg) (b : Byte) : (s.writeV x b).pc = s.pc := rfl
@[simp] theorem State.writeV_sp (x : Reg) (b : Byte) : (s.writeV x b).sp = s.sp := rfl
@[simp] theorem State.writeV_stack (x : Reg) (b : Byte) : (s.writeV x b).stack = s.stack := rfl
@[simp] theorem State.writeV_dt (x : Reg) (b : Byte) : (s.writeV x b).dt = s.dt := rfl
@[simp] theorem State.writeV_st (x : Reg) (b : Byte) : (s.writeV x b).st = s.st := rfl
@[simp] theorem State.writeV_mem (x : Reg) (b : Byte) : (s.writeV x b).mem = s.mem := rfl
@[simp] theorem State.writeV_fb (x : Reg) (b : Byte) : (s.writeV x b).fb = s.fb := rfl
@[simp] theorem State.writeV_keys (x : Reg) (b : Byte) : (s.writeV x b).keys = s.keys := rfl
@[simp] theorem State.writeV_lastKey (x : Reg) (b : Byte) : (s.writeV x b).lastKey = s.lastKey := rfl
@[simp] theorem State.writeV_wait (x : Reg) (b : Byte) : (s.writeV x b).wait = s.wait := rfl
@[simp] theorem State.writeV_life (x : Reg) (b : Byte) : (s.writeV x b).life = s.life := rfl
@[simp] theorem State.writeV_stop (x : Reg) (b : Byte) : (s.writeV x b).stop = s.stop := rfl
@[simp] theorem State.writeV_schedule (x : Reg) (b : Byte) : (s.writeV x b).schedule = s.schedule := rfl
@[simp] theorem State.writeV_events (x : Reg) (b : Byte) : (s.writeV x b).events = s.events := rfl
@[simp] theorem State.writeV_draws (x : Reg) (b : Byte) : (s.writeV x b).draws = s.draws := rfl

@[simp] theorem State.setV_v (v : Vector Byte 16) : (s.setV v).v = v := rfl
@[simp] theorem State.setV_i (v : Vector Byte 16) : (s.setV v).i = s.i := rfl
@[simp] theorem State.setV_pc (v : Vector Byte 16) : (s.setV v).pc = s.pc := rfl
@[simp] theorem State.setV_sp (v : Vector Byte 16) : (s.setV v).sp = s.sp := rfl
@[simp] theorem State.setV_stack (v : Vector Byte 16) : (s.setV v).stack = s.stack := rfl
@[simp] theorem State.setV_dt (v : Vector Byte 16) : (s.setV v).dt = s.dt := rfl
@[simp] theorem State.setV_st (v : Vector Byte 16) : (s.setV v).st = s.st := rfl
@[simp] theorem State.setV_mem (v : Vector Byte 16) : (s.setV v).mem = s.mem := rfl
@[simp] theorem State.setV_fb (v : Vector Byte 16) : (s.setV v).fb = s.fb := rfl
@[simp] theorem State.setV_keys (v : Vector Byte 16) : (s.setV v).keys = s.keys := rfl
@[simp] theorem State.setV_lastKey (v : Vector Byte 16) : (s.setV v).lastKey = s.lastKey := rfl
@[simp] theorem State.setV_wait (v : Vector Byte 16) : (s.setV v).wait = s.wait := rfl
@[simp] theorem State.setV_life (v : Vector Byte 16) : (s.setV v).life = s.life := rfl
@[simp] theorem State.setV_stop (v : Vector Byte 16) : (s.setV v).stop = s.stop := rfl
@[simp] theorem State.setV_schedule (v : Vector Byte 16) : (s.setV v).schedule = s.schedule := rfl
@[simp] theorem State.setV_events (v : Vector Byte 16) : (s.setV v).events = s.events := rfl
@[simp] theorem State.setV_draws (v : Vector Byte 16) : (s.setV v).draws = s.draws := rfl

@[simp] theorem State.setI_v (a : Word) : (s.setI a).v = s.v := rfl
@[simp] theorem State.setI_i (a : Word) : (s.setI a).i = a := rfl
@[simp] theorem State.setI_pc (a : Word) : (s.setI a).pc = s.pc := rfl
@[simp] theorem State.setI_sp (a : Word) : (s.setI a).sp = s.sp := rfl
@[simp] theorem State.setI_stack (a : Word) : (s.setI a).stack = s.stack := rfl
@[simp] theorem State.setI_dt (a : Word) : (s.setI a).dt = s.dt := rfl
@[simp] theorem State.setI_st (a : Word) : (s.setI a).st = s.st := rfl
@[simp] theorem State.setI_mem (a : Word) : (s.setI a).mem = s.mem := rfl
@[simp] theorem State.setI_fb (a : Word) : (s.setI a).fb = s.fb := rfl
@[simp] theorem State.setI_keys (a : Word) : (s.setI a).keys = s.keys := rfl
@[simp] theorem State.setI_lastKey (a : Word) : (s.setI a).lastKey = s.lastKey := rfl
@[simp] theorem State.setI_wait (a : Word) : (s.setI a).wait = s.wait := rfl
@[simp] theorem State.setI_life (a : Word) : (s.setI a).life = s.life := rfl
@[simp] theorem State.setI_stop (a : Word) : (s.setI a).stop = s.stop := rfl
@[simp] theorem State.setI_schedule (a : Word) : (s.setI a).schedule = s.schedule := rfl
@[simp] theorem State.setI_events (a : Word) : (s.setI a).events = s.events := rfl
@[simp] theorem State.setI_draws (a : Word) : (s.setI a).draws = s.draws := rfl

@[simp] theorem State.setPc_v (a : Word) : (s.setPc a).v = s.v := rfl
@[simp] theorem State.setPc_i (a : Word) : (s.setPc a).i = s.i := rfl
@[simp] theorem State.setPc_pc (a : Word) : (s.setPc a).pc = a := rfl
@[simp] theorem State.setPc_sp (a : Word) : (s.setPc a).sp = s.sp := rfl
@[simp] theorem State.setPc_stack (a : Word) : (s.setPc a).stack = s.stack := rfl
@[simp] theorem State.setPc_dt (a : Word) : (s.setPc a).dt = s.dt := rfl
@[simp] theorem State.setPc_st (a : Word) : (s.setPc a).st = s.st := rfl
@[simp] theorem State.setPc_mem (a : Word) : (s.setPc a).mem = s.mem := rfl
@[simp] theorem State.setPc_fb (a : Word) : (s.setPc a).fb = s.fb := rfl
@[simp] theorem State.setPc_keys (a : Word) : (s.setPc a).keys = s.keys := rfl
@[simp] theorem State.setPc_lastKey (a : Word) : (s.setPc a).lastKey = s.lastKey := rfl
@[simp] theorem State.setPc_wait (a : Word) : (s.setPc a).wait = s.wait := rfl
@[simp] theorem State.setPc_life (a : Word) : (s.setPc a).life = s.life := rfl
@[simp] theorem State.setPc_stop (a : Word) : (s.setPc a).stop = s.stop := rfl
@[simp] theorem State.setPc_schedule (a : Word) : (s.setPc a).schedule = s.schedule := rfl
@[simp] theorem State.setPc_events (a : Word) : (s.setPc a).events = s.events := rfl
@[simp] theorem State.setPc_draws (a : Word) : (s.setPc a).draws = s.draws := rfl

@[simp] theorem State.setSp_v (n : Byte) : (s.setSp n).v = s.v := rfl
@[simp] theorem State.setSp_i (n : Byte) : (s.setSp n).i = s.i := rfl
@[simp] theorem State.setSp_pc (n : Byte) : (s.setSp n).pc = s.pc := rfl
@[simp] theorem State.setSp_sp (n : Byte) : (s.setSp n).sp = n := rfl
@[simp] theorem State.setSp_stack (n : Byte) : (s.setSp n).stack = s.stack := rfl
@[simp] theorem State.setSp_dt (n : Byte) : (s.setSp n).dt = s.dt := rfl
@[simp] theorem State.setSp_st (n : Byte) : (s.setSp n).st = s.st := rfl
@[simp] theorem State.setSp_mem (n : Byte) : (s.setSp n).mem = s.mem := rfl
@[simp] theorem State.setSp_fb (n : Byte) : (s.setSp n).fb = s.fb := rfl
@[simp] theorem State.setSp_keys (n : Byte) : (s.setSp n).keys = s.keys := rfl
@[simp] theorem State.setSp_lastKey (n : Byte) : (s.setSp n).lastKey = s.lastKey := rfl
@[simp] theorem State.setSp_wait (n : Byte) : (s.setSp n).wait = s.wait := rfl
@[simp] theorem State.setSp_life (n : Byte) : (s.setSp n).life = s.life := rfl
@[simp] theorem State.setSp_stop (n : Byte) : (s.setSp n).stop = s.stop := rfl
@[simp] theorem State.setSp_schedule (n : Byte) : (s.setSp n).schedule = s.schedule := rfl
@[simp] theorem State.setSp_events (n : Byte) : (s.setSp n).events = s.events := rfl
@[simp] theorem State.setSp_draws (n : Byte) : (s.setSp n).draws = s.draws := rfl

@[simp] theorem State.setSlot_v (j : Fin 16) (a : Word) : (s.setSlot j a).v = s.v := rfl
@[simp] theorem State.setSlot_i (j : Fin 16) (a : Word) : (s.setSlot j a).i = s.i := rfl
@[simp] theorem State.setSlot_pc (j : Fin 16) (a : Word) : (s.setSlot j a).pc = s.pc := rfl
@[simp] theorem State.setSlot_sp (j : Fin 16) (a : Word) : (s.setSlot j a).sp = s.sp := rfl
@[simp] theorem State.setSlot_stack (j : Fin 16) (a : Word) : (s.setSlot j a).stack = s.stack.set j.val a j.isLt := rfl
@[simp] theorem State.setSlot_dt (j : Fin 16) (a : Word) : (s.setSlot j a).dt = s.dt := rfl
@[simp] theorem State.setSlot_st (j : Fin 16) (a : Word) : (s.setSlot j a).st = s.st := rfl
@[simp] theorem State.setSlot_mem (j : Fin 16) (a : Word) : (s.setSlot j a).mem = s.mem := rfl
@[simp] theorem State.setSlot_fb (j : Fin 16) (a : Word) : (s.setSlot j a).fb = s.fb := rfl
@[simp] theorem State.setSlot_keys (j : Fin 16) (a : Word) : (s.setSlot j a).keys = s.keys := rfl
@[simp] theorem State.setSlot_lastKey (j : Fin 16) (a : Word) : (s.setSlot j a).lastKey = s.lastKey := rfl
@[simp] theorem State.setSlot_wait (j : Fin 16) (a : Word) : (s.setSlot j a).wait = s.wait := rfl
@[simp] theorem State.setSlot_life (j : Fin 16) (a : Word) : (s.setSlot j a).life = s.life := rfl
@[simp] theorem State.setSlot_stop (j : Fin 16) (a : Word) : (s.setSlot j a).stop = s.stop := rfl
@[simp] theorem State.setSlot_schedule (j : Fin 16) (a : Word) : (s.setSlot j a).schedule = s.schedule := rfl
@[simp] theorem State.setSlot_events (j : Fin 16) (a : Word) : (s.setSlot j a).events = s.events := rfl
@[simp] theorem State.setSlot_draws (j : Fin 16) (a : Word) : (s.setSlot j a).draws = s.draws := rfl

@[simp] theorem State.setDt_v (b : Byte) : (s.setDt b).v = s.v := rfl
@[simp] theorem State.setDt_i (b : Byte) : (s.setDt b).i = s.i := rfl
@[simp] theorem State.setDt_pc (b : Byte) : (s.setDt b).pc = s.pc := rfl
@[simp] theorem State.setDt_sp (b : Byte) : (s.setDt b).sp = s.sp := rfl
@[simp] theorem State.setDt_stack (b : Byte) : (s.setDt b).stack = s.stack := rfl
@[simp] theorem State.setDt_dt (b : Byte) : (s.setDt b).dt = b := rfl
@[simp] theorem State.setDt_st (b : Byte) : (s.setDt b).st = s.st := rfl
@[simp] theorem State.setDt_mem (b : Byte) : (s.setDt b).mem = s.mem := rfl
@[simp] theorem State.setDt_fb (b : Byte) : (s.setDt b).fb = s.fb := rfl
@[simp] theorem State.setDt_keys (b : Byte) : (s.setDt b).keys = s.keys := rfl
@[simp] theorem State.setDt_lastKey (b : Byte) : (s.setDt b).lastKey = s.lastKey := rfl
@[simp] theorem State.setDt_wait (b : Byte) : (s.setDt b).wait = s.wait := rfl
@[simp] theorem State.setDt_life (b : Byte) : (s.setDt b).life = s.life := rfl
@[simp] theorem State.setDt_stop (b : Byte) : (s.setDt b).stop = s.stop := rfl
@[simp] theorem State.setDt_schedule (b : Byte) : (s.setDt b).schedule = s.schedule := rfl
@[simp] theorem State.setDt_events (b : Byte) : (s.setDt b).events = s.events := rfl
@[simp] theorem State.setDt_draws (b : Byte) : (s.setDt b).draws = s.draws := rfl

@[simp] theorem State.setSt_v (b : Byte) : (s.setSt b).v = s.v := rfl
@[simp] theorem State.setSt_i (b : Byte) : (s.setSt b).i = s.i := rfl
@[simp] theorem State.setSt_pc (b : Byte) : (s.setSt b).pc = s.pc := rfl
@[simp] theorem State.setSt_sp (b : Byte) : (s.setSt b).sp = s.sp := rfl
@[simp] theorem State.setSt_stack (b : Byte) : (s.setSt b).stack = s.stack := rfl
@[simp] theorem State.setSt_dt (b : Byte) : (s.setSt b).dt = s.dt := rfl
@[simp] theorem State.setSt_st (b : Byte) : (s.setSt b).st = b := rfl
@[simp] theorem State.setSt_mem (b : Byte) : (s.setSt b).mem = s.mem := rfl
@[simp] theorem State.setSt_fb (b : Byte) : (s.setSt b).fb = s.fb := rfl
@[simp] theorem State.setSt_keys (b : Byte) : (s.setSt b).keys = s.keys := rfl
@[simp] theorem State.setSt_lastKey (b : Byte) : (s.setSt b).lastKey = s.lastKey := rfl
@[simp] theorem State.setSt_wait (b : Byte) : (s.setSt b).wait = s.wait := rfl
@[simp] theorem State.setSt_life (b : Byte) : (s.setSt b).life = s.life := rfl
@[simp] theorem State.setSt_stop (b : Byte) : (s.setSt b).stop = s.stop := rfl
@[simp] theorem State.setSt_schedule (b : Byte) : (s.setSt b).schedule = s.schedule := rfl
@[simp] theorem State.setSt_events (b : Byte) : (s.setSt b).events = s.events := rfl
@[simp] theorem State.setSt_draws (b : Byte) : (s.setSt b).draws = s.draws := rfl

@[simp] theorem State.setMem_v (m : Memory) : (s.setMem m).v = s.v := rfl
@[simp] theorem State.setMem_i (m : Memory) : (s.setMem m).i = s.i := rfl
@[simp] theorem State.setMem_pc (m : Memory) : (s.setMem m).pc = s.pc := rfl
@[simp] theorem State.setMem_sp (m : Memory) : (s.setMem m).sp = s.sp := rfl
@[simp] theorem State.setMem_stack (m : Memory) : (s.setMem m).stack = s.stack := rfl
@[simp] theorem State.setMem_dt (m : Memory) : (s.setMem m).dt = s.dt := rfl
@[simp] theorem State.setMem_st (m : Memory) : (s.setMem m).st = s.st := rfl
@[simp] theorem State.setMem_mem (m : Memory) : (s.setMem m).mem = m := rfl
@[simp] theorem State.setMem_fb (m : Memory) : (s.setMem m).fb = s.fb := rfl
@[simp] theorem State.setMem_keys (m : Memory) : (s.setMem m).keys = s.keys := rfl
@[simp] theorem State.setMem_lastKey (m : Memory) : (s.setMem m).lastKey = s.lastKey := rfl
@[simp] theorem State.setMem_wait (m : Memory) : (s.setMem m).wait = s.wait := rfl
@[simp] theorem State.setMem_life (m : Memory) : (s.setMem m).life = s.life := rfl
@[simp] theorem State.setMem_stop (m : Memory) : (s.setMem m).stop = s.stop := rfl
@[simp] theorem State.setMem_schedule (m : Memory) : (s.setMem m).schedule = s.schedule := rfl
@[simp] theorem State.setMem_events (m : Memory) : (s.setMem m).events = s.events := rfl
@[simp] theorem State.setMem_draws (m : Memory) : (s.setMem m).draws = s.draws := rfl

@[simp] theorem State.setFb_v (f : FrameBuffer) : (s.setFb f).v = s.v := rfl
@[simp] theorem State.setFb_i (f : FrameBuffer) : (s.setFb f).i = s.i := rfl
@[simp] theorem State.setFb_pc (f : FrameBuffer) : (s.setFb f).pc = s.pc := rfl
@[simp] theorem State.setFb_sp (f : FrameBuffer) : (s.setFb f).sp = s.sp := rfl
@[simp] theorem State.setFb_stack (f : FrameBuffer) : (s.setFb f).stack = s.stack := rfl
@[simp] theorem State.setFb_dt (f : FrameBuffer) : (s.setFb f).dt = s.dt := rfl
@[simp] theorem State.setFb_st (f : FrameBuffer) : (s.setFb f).st = s.st := rfl
@[simp] theorem State.setFb_mem (f : FrameBuffer) : (s.setFb f).mem = s.mem := rfl
@[simp] theorem State.setFb_fb (f : FrameBuffer) : (s.setFb f).fb = f := rfl
@[simp] theorem State.setFb_keys (f : FrameBuffer) : (s.setFb f).keys = s.keys := rfl
@[simp] theorem State.setFb_lastKey (f : FrameBuffer) : (s.setFb f).lastKey = s.lastKey := rfl
@[simp] theorem State.setFb_wait (f : FrameBuffer) : (s.setFb f).wait = s.wait := rfl
@[simp] theorem State.setFb_life (f : FrameBuffer) : (s.setFb f).life = s.life := rfl
@[simp] theorem State.setFb_stop (f : FrameBuffer) : (s.setFb f).stop = s.stop := rfl
@[simp] theorem State.setFb_schedule (f : FrameBuffer) : (s.setFb f).schedule = s.schedule := rfl
@[simp] theorem State.setFb_events (f : FrameBuffer) : (s.setFb f).events = s.events := rfl
@[simp] theorem State.setFb_draws (f : FrameBuffer) : (s.setFb f).draws = s.draws := rfl

@[simp] theorem State.setKey_v (k : Key) (down : Bool) : (s.setKey k down).v = s.v := rfl
@[simp] theorem State.setKey_i (k : Key) (down : Bool) : (s.setKey k down).i = s.i := rfl
@[simp] theorem State.setKey_pc (k : Key) (down : Bool) : (s.setKey k down).pc = s.pc := rfl
@[simp] theorem State.setKey_sp (k : Key) (down : Bool) : (s.setKey k down).sp = s.sp := rfl
@[simp] theorem State.setKey_stack (k : Key) (down : Bool) : (s.setKey k down).stack = s.stack := rfl
@[simp] theorem State.setKey_dt (k : Key) (down : Bool) : (s.setKey k down).dt = s.dt := rfl
@[simp] theorem State.setKey_st (k : Key) (down : Bool) : (s.setKey k down).st = s.st := rfl
@[simp] theorem State.setKey_mem (k : Key) (down : Bool) : (s.setKey k down).mem = s.mem := rfl
@[simp] theorem State.setKey_fb (k : Key) (down : Bool) : (s.setKey k down).fb = s.fb := rfl
@[simp] theorem State.setKey_keys (k : Key) (down : Bool) : (s.setKey k down).keys = s.keys.set k.val down k.isLt := rfl
@[simp] theorem State.setKey_lastKey (k : Key) (down : Bool) : (s.setKey k down).lastKey = s.lastKey := rfl
@[simp] theorem State.setKey_wait (k : Key) (down : Bool) : (s.setKey k down).wait = s.wait := rfl
@[simp] theorem State.setKey_life (k : Key) (down : Bool) : (s.setKey k down).life = s.life := rfl
@[simp] theorem State.setKey_stop (k : Key) (down : Bool) : (s.setKey k down).stop = s.stop := rfl
@[simp] theorem State.setKey_schedule (k : Key) (down : Bool) : (s.setKey k down).schedule = s.schedule := rfl
@[simp] theorem State.setKey_events (k : Key) (down : Bool) : (s.setKey k down).events = s.events := rfl
@[simp] theorem State.setKey_draws (k : Key) (down : Bool) : (s.setKey k down).draws = s.draws := rfl

@[simp] theorem State.setLastKey_v (k : Option Key) : (s.setLastKey k).v = s.v := rfl
@[simp] theorem State.setLastKey_i (k : Option Key) : (s.setLastKey k).i = s.i := rfl
@[simp] theorem State.setLastKey_pc (k : Option Key) : (s.setLastKey k).pc = s.pc := rfl
@[simp] theorem State.setLastKey_sp (k : Option Key) : (s.setLastKey k).sp = s.sp := rfl
@[simp] theorem State.setLastKey_stack (k : Option Key) : (s.setLastKey k).stack = s.stack := rfl
@[simp] theorem State.setLastKey_dt (k : Option Key) : (s.setLastKey k).dt = s.dt := rfl
@[simp] theorem State.setLastKey_st (k : Option Key) : (s.setLastKey k).st = s.st := rfl
@[simp] theorem State.setLastKey_mem (k : Option Key) : (s.setLastKey k).mem = s.mem := rfl
@[simp] theorem State.setLastKey_fb (k : Option Key) : (s.setLastKey k).fb = s.fb := rfl
@[simp] theorem State.setLastKey_keys (k : Option Key) : (s.setLastKey k).keys = s.keys := rfl
@[simp] theorem State.setLastKey_lastKey (k : Option Key) : (s.setLastKey k).lastKey = k := rfl
@[simp] theorem State.setLastKey_wait (k : Option Key) : (s.setLastKey k).wait = s.wait := rfl
@[simp] theorem State.setLastKey_life (k : Option Key) : (s.setLastKey k).life = s.life := rfl
@[simp] theorem State.setLastKey_stop (k : Option Key) : (s.setLastKey k).stop = s.stop := rfl
@[simp] theorem State.setLastKey_schedule (k : Option Key) : (s.setLastKey k).schedule = s.schedule := rfl
@[simp] theorem State.setLastKey_events (k : Option Key) : (s.setLastKey k).events = s.events := rfl
@[simp] theorem State.setLastKey_draws (k : Option Key) : (s.setLastKey k).draws = s.draws := rfl

@[simp] theorem State.setWait_v (w : Option Reg) : (s.setWait w).v = s.v := rfl
@[simp] theorem State.setWait_i (w : Option Reg) : (s.setWait w).i = s.i := rfl
@[simp] theorem State.setWait_pc (w : Option Reg) : (s.setWait w).pc = s.pc := rfl
@[simp] theorem State.setWait_sp (w : Option Reg) : (s.setWait w).sp = s.sp := rfl
@[simp] theorem State.setWait_stack (w : Option Reg) : (s.setWait w).stack = s.stack := rfl
@[simp] theorem State.setWait_dt (w : Option Reg) : (s.setWait w).dt = s.dt := rfl
@[simp] theorem State.setWait_st (w : Option Reg) : (s.setWait w).st = s.st := rfl
@[simp] theorem State.setWait_mem (w : Option Reg) : (s.setWait w).mem = s.mem := rfl
@[simp] theorem State.setWait_fb (w : Option Reg) : (s.setWait w).fb = s.fb := rfl
@[simp] theorem State.setWait_keys (w : Option Reg) : (s.setWait w).keys = s.keys := rfl
@[simp] theorem State.setWait_lastKey (w : Option Reg) : (s.setWait w).lastKey = s.lastKey := rfl
@[simp] theorem State.setWait_wait (w : Option Reg) : (s.setWait w).wait = w := rfl
@[simp] theorem State.setWait_life (w : Option Reg) : (s.setWait w).life = s.life := rfl
@[simp] theorem State.setWait_stop (w : Option Reg) : (s.setWait w).stop = s.stop := rfl
@[simp] theorem State.setWait_schedule (w : Option Reg) : (s.setWait w).schedule = s.schedule := rfl
@[simp] theorem State.setWait_events (w : Option Reg) : (s.setWait w).events = s.events := rfl
@[simp] theorem State.setWait_draws (w : Option Reg) : (s.setWait w).draws = s.draws := rfl

@[simp] theorem State.setLife_v (l : Life) : (s.setLife l).v = s.v := rfl
@[simp] theorem State.setLife_i (l : Life) : (s.setLife l).i = s.i := rfl
@[simp] theorem State.setLife_pc (l : Life) : (s.setLife l).pc = s.pc := rfl
@[simp] theorem State.setLife_sp (l : Life) : (s.setLife l).sp = s.sp := rfl
@[simp] theorem State.setLife_stack (l : Life) : (s.setLife l).stack = s.stack := rfl
@[simp] theorem State.setLife_dt (l : Life) : (s.setLife l).dt = s.dt := rfl
@[simp] theorem State.setLife_st (l : Life) : (s.setLife l).st = s.st := rfl
@[simp] theorem State.setLife_mem (l : Life) : (s.setLife l).mem = s.mem := rfl
@[simp] theorem State.setLife_fb (l : Life) : (s.setLife l).fb = s.fb := rfl
@[simp] theorem State.setLife_keys (l : Life) : (s.setLife l).keys = s.keys := rfl
@[simp] theorem State.setLife_lastKey (l : Life) : (s.setLife l).lastKey = s.lastKey := rfl
@[simp] theorem State.setLife_wait (l : Life) : (s.setLife l).wait = s.wait := rfl
@[simp] theorem State.setLife_life (l : Life) : (s.setLife l).life = l := rfl
@[simp] theorem State.setLife_stop (l : Life) : (s.setLife l).stop = s.stop := rfl
@[simp] theorem State.setLife_schedule (l : Life) : (s.setLife l).schedule = s.schedule := rfl
@[simp] theorem State.setLife_events (l : Life) : (s.setLife l).events = s.events := rfl
@[simp] theorem State.setLife_draws (l : Life) : (s.setLife l).draws = s.draws := rfl

@[simp] theorem State.setStop_v (r : Option StopRecord) : (s.setStop r).v = s.v := rfl
@[simp] theorem State.setStop_i (r : Option StopRecord) : (s.setStop r).i = s.i := rfl
@[simp] theorem State.setStop_pc (r : Option StopRecord) : (s.setStop r).pc = s.pc := rfl
@[simp] theorem State.setStop_sp (r : Option StopRecord) : (s.setStop r).sp = s.sp := rfl
@[simp] theorem State.setStop_stack (r : Option StopRecord) : (s.setStop r).stack = s.stack := rfl
@[simp] theorem State.setStop_dt (r : Option StopRecord) : (s.setStop r).dt = s.dt := rfl
@[simp] theorem State.setStop_st (r : Option StopRecord) : (s.setStop r).st = s.st := rfl
@[simp] theorem State.setStop_mem (r : Option StopRecord) : (s.setStop r).mem = s.mem := rfl
@[simp] theorem State.setStop_fb (r : Option StopRecord) : (s.setStop r).fb = s.fb := rfl
@[simp] theorem State.setStop_keys (r : Option StopRecord) : (s.setStop r).keys = s.keys := rfl
@[simp] theorem State.setStop_lastKey (r : Option StopRecord) : (s.setStop r).lastKey = s.lastKey := rfl
@[simp] theorem State.setStop_wait (r : Option StopRecord) : (s.setStop r).wait = s.wait := rfl
@[simp] theorem State.setStop_life (r : Option StopRecord) : (s.setStop r).life = s.life := rfl
@[simp] theorem State.setStop_stop (r : Option StopRecord) : (s.setStop r).stop = r := rfl
@[simp] theorem State.setStop_schedule (r : Option StopRecord) : (s.setStop r).schedule = s.schedule := rfl
@[simp] theorem State.setStop_events (r : Option StopRecord) : (s.setStop r).events = s.events := rfl
@[simp] theorem State.setStop_draws (r : Option StopRecord) : (s.setStop r).draws = s.draws := rfl

@[simp] theorem State.setSchedule_v (l : List Turn) : (s.setSchedule l).v = s.v := rfl
@[simp] theorem State.setSchedule_i (l : List Turn) : (s.setSchedule l).i = s.i := rfl
@[simp] theorem State.setSchedule_pc (l : List Turn) : (s.setSchedule l).pc = s.pc := rfl
@[simp] theorem State.setSchedule_sp (l : List Turn) : (s.setSchedule l).sp = s.sp := rfl
@[simp] theorem State.setSchedule_stack (l : List Turn) : (s.setSchedule l).stack = s.stack := rfl
@[simp] theorem State.setSchedule_dt (l : List Turn) : (s.setSchedule l).dt = s.dt := rfl
@[simp] theorem State.setSchedule_st (l : List Turn) : (s.setSchedule l).st = s.st := rfl
@[simp] theorem State.setSchedule_mem (l : List Turn) : (s.setSchedule l).mem = s.mem := rfl
@[simp] theorem State.setSchedule_fb (l : List Turn) : (s.setSchedule l).fb = s.fb := rfl
@[simp] theorem State.setSchedule_keys (l : List Turn) : (s.setSchedule l).keys = s.keys := rfl
@[simp] theorem State.setSchedule_lastKey (l : List Turn) : (s.setSchedule l).lastKey = s.lastKey := rfl
@[simp] theorem State.setSchedule_wait (l : List Turn) : (s.setSchedule l).wait = s.wait := rfl
@[simp] theorem State.setSchedule_life (l : List Turn) : (s.setSchedule l).life = s.life := rfl
@[simp] theorem State.setSchedule_stop (l : List Turn) : (s.setSchedule l).stop = s.stop := rfl
@[simp] theorem State.setSchedule_schedule (l : List Turn) : (s.setSchedule l).schedule = l := rfl
@[simp] theorem State.setSchedule_events (l : List Turn) : (s.setSchedule l).events = s.events := rfl
@[simp] theorem State.setSchedule_draws (l : List Turn) : (s.setSchedule l).draws = s.draws := rfl

@[simp] theorem State.emit_v (e : OutEvent) : (s.emit e).v = s.v := rfl
@[simp] theorem State.emit_i (e : OutEvent) : (s.emit e).i = s.i := rfl
@[simp] theorem State.emit_pc (e : OutEvent) : (s.emit e).pc = s.pc := rfl
@[simp] theorem State.emit_sp (e : OutEvent) : (s.emit e).sp = s.sp := rfl
@[simp] theorem State.emit_stack (e : OutEvent) : (s.emit e).stack = s.stack := rfl
@[simp] theorem State.emit_dt (e : OutEvent) : (s.emit e).dt = s.dt := rfl
@[simp] theorem State.emit_st (e : OutEvent) : (s.emit e).st = s.st := rfl
@[simp] theorem State.emit_mem (e : OutEvent) : (s.emit e).mem = s.mem := rfl
@[simp] theorem State.emit_fb (e : OutEvent) : (s.emit e).fb = s.fb := rfl
@[simp] theorem State.emit_keys (e : OutEvent) : (s.emit e).keys = s.keys := rfl
@[simp] theorem State.emit_lastKey (e : OutEvent) : (s.emit e).lastKey = s.lastKey := rfl
@[simp] theorem State.emit_wait (e : OutEvent) : (s.emit e).wait = s.wait := rfl
@[simp] theorem State.emit_life (e : OutEvent) : (s.emit e).life = s.life := rfl
@[simp] theorem State.emit_stop (e : OutEvent) : (s.emit e).stop = s.stop := rfl
@[simp] theorem State.emit_schedule (e : OutEvent) : (s.emit e).schedule = s.schedule := rfl
@[simp] theorem State.emit_events (e : OutEvent) : (s.emit e).events = s.events ++ [e] := rfl
@[simp] theorem State.emit_draws (e : OutEvent) : (s.emit e).draws = s.draws := rfl

@[simp] theorem State.countDraw_v : (s.countDraw).v = s.v := rfl
@[simp] theorem State.countDraw_i : (s.countDraw).i = s.i := rfl
@[simp] theorem State.countDraw_pc : (s.countDraw).pc = s.pc := rfl
@[simp] theorem State.countDraw_sp : (s.countDraw).sp = s.sp := rfl
@[simp] theorem State.countDraw_stack : (s.countDraw).stack = s.stack := rfl
@[simp] theorem State.countDraw_dt : (s.countDraw).dt = s.dt := rfl
@[simp] theorem State.countDraw_st : (s.countDraw).st = s.st := rfl
@[simp] theorem State.countDraw_mem : (s.countDraw).mem = s.mem := rfl
@[simp] theorem State.countDraw_fb : (s.countDraw).fb = s.fb := rfl
@[simp] theorem State.countDraw_keys : (s.countDraw).keys = s.keys := rfl
@[simp] theorem State.countDraw_lastKey : (s.countDraw).lastKey = s.lastKey := rfl
@[simp] theorem State.countDraw_wait : (s.countDraw).wait = s.wait := rfl
@[simp] theorem State.countDraw_life : (s.countDraw).life = s.life := rfl
@[simp] theorem State.countDraw_stop : (s.countDraw).stop = s.stop := rfl
@[simp] theorem State.countDraw_schedule : (s.countDraw).schedule = s.schedule := rfl
@[simp] theorem State.countDraw_events : (s.countDraw).events = s.events := rfl
@[simp] theorem State.countDraw_draws : (s.countDraw).draws = s.draws + 1 := rfl

end Sys2Proof.Machine
end

