-- ==== Sys2Proof/Laws/Regs.lean ====
section
/-! SUPPORT. The register file: what a read gives after each way of writing registers (R21, R180, R225). -/
namespace Sys2Proof.Machine

theorem State.readV_writeV (s : State) (x r : Reg) (b : Byte) :
    (s.writeV x b).readV r = if r = x then b else s.readV r := by
  simp only [State.readV, State.writeV_v, Vector.getElem_set, Fin.ext_iff, eq_comm]

@[simp] theorem State.readV_writeV_same (s : State) (x : Reg) (b : Byte) : (s.writeV x b).readV x = b := by
  simp [State.readV_writeV]

/-- VF is register 15 (R22). -/
theorem regF_eq : regF = 15 := rfl

/-- The result stays and the flag stands in VF unless `x` is VF (R180). -/
theorem State.readV_writeFlagThenResult (s : State) (x r : Reg) (f b : Byte) :
    (s.writeFlagThenResult x f b).readV r = if r = x then b else if r = regF then f else s.readV r := by
  simp only [State.writeFlagThenResult, State.readV_writeV]

/-- Two states with the same V registers, read one by one, have the same register file. -/
theorem State.v_ext {s t : State} (h : ∀ r, s.readV r = t.readV r) : s.v = t.v := by
  apply Vector.ext
  intro k hk
  exact h ⟨k, hk⟩

theorem writeRegs_getElem (bs : List Byte) : ∀ (v : Vector Byte 16) (k : Nat), k + bs.length ≤ 16 →
    ∀ r (hr : r < 16), (writeRegs v k bs)[r] = if k ≤ r ∧ r < k + bs.length then bs.getD (r - k) 0#8 else v[r] := by
  induction bs with
  | nil => intro v k _ r hr; simp [writeRegs]
  | cons b bs ih =>
    intro v k hk r hr
    simp only [List.length_cons] at hk ⊢
    rw [writeRegs, ih _ _ (by omega) r hr, Vector.getElem_setIfInBounds]
    by_cases h0 : r = k
    · subst h0
      simp
    · by_cases hin : k + 1 ≤ r ∧ r < k + 1 + bs.length
      · obtain ⟨j, rfl⟩ : ∃ j, r = k + 1 + j := ⟨r - (k + 1), by omega⟩
        rw [if_pos hin, if_pos (by omega), show k + 1 + j - k = j + 1 by omega,
          show k + 1 + j - (k + 1) = j by omega, List.getD_cons_succ]
      · rw [if_neg hin, if_neg (by omega), if_neg (by omega)]

@[simp] theorem State.regsUpTo_length (s : State) (x : Reg) : (s.regsUpTo x).length = x.val + 1 := by
  simp [State.regsUpTo]

/-- V0 to Vx in order (R224). -/
theorem State.regsUpTo_getD (s : State) (x r : Reg) (h : r.val ≤ x.val) :
    (s.regsUpTo x).getD r.val 0#8 = s.readV r := by
  have hl : r.val < (s.regsUpTo x).length := by simp; omega
  rw [List.getD_eq_getElem _ _ hl]
  simp [State.regsUpTo, State.readV]

@[simp] theorem bcdDigits_length (b : Byte) : (bcdDigits b).length = 3 := rfl

end Sys2Proof.Machine
end

