-- ==== Sys2Proof/Laws/Display.lean ====
section
/-! SUPPORT. The frame buffer controller: which pixels a draw inverts and when it reports a collision (R252 to R254). -/
namespace Sys2Proof.Machine

theorem pixel_setPixel (f : FrameBuffer) (c c' : Fin 64) (r r' : Fin 32) (b : Bool) :
    pixel (setPixel f c r b) c' r' = if c' = c ∧ r' = r then b else pixel f c' r' := by
  unfold pixel setPixel
  by_cases hc : c' = c
  · subst hc
    by_cases hr : r' = r
    · subst hr; simp
    · have : r.val ≠ r'.val := fun h => hr (Fin.ext h.symm)
      simp [hr, Vector.getElem_set_ne, this]
  · have : c.val ≠ c'.val := fun h => hc (Fin.ext h.symm)
    simp [hc, Vector.getElem_set_ne, this]

@[simp] theorem pixel_blankFrame (c : Fin 64) (r : Fin 32) : pixel blankFrame c r = false := by
  simp [pixel, blankFrame]

/-- Grids that agree pixel by pixel are equal. -/
theorem frame_ext {f g : FrameBuffer} (h : ∀ c r, pixel f c r = pixel g c r) : f = g := by
  apply Vector.ext
  intro c hc
  apply Vector.ext
  intro r hr
  exact h ⟨c, hc⟩ ⟨r, hr⟩

theorem pixel_xorPixel (d : FrameBuffer × Bool) (c c' : Fin 64) (r r' : Fin 32) :
    pixel (xorPixel d c r).1 c' r' = (pixel d.1 c' r' ^^ decide (c' = c ∧ r' = r)) := by
  simp only [xorPixel, pixel_setPixel]
  split
  · rename_i h; obtain ⟨rfl, rfl⟩ := h; simp
  · rename_i h; simp [h]

/-- Columns 0 to `k` - 1 of a sprite row at start column `cx` have a 1 bit that falls on grid column `c`. -/
abbrev RowHits (cx : Nat) (row : Byte) (k : Nat) (c : Fin 64) : Prop :=
  ∃ j < k, row.getLsbD (7 - j) = true ∧ wrapColumn (cx + j) = c

/-- At most 64 columns of a row never fall twice on one grid column. -/
theorem wrapColumn_inj {cx j k : Nat} (hj : j < 64) (hk : k < 64) (h : wrapColumn (cx + j) = wrapColumn (cx + k)) :
    j = k := by
  have : (cx + j) % 64 = (cx + k) % 64 := congrArg Fin.val h
  omega

/-- What one sprite row does: it inverts the pixels its 1 bits fall on, and reports whether one of them was on. -/
theorem drawColumns_spec (cx : Nat) (r : Fin 32) (row : Byte) (d : FrameBuffer × Bool) : ∀ k, k ≤ 8 →
    (∀ c r', pixel (drawColumns cx r row d k).1 c r' = (pixel d.1 c r' ^^ decide (r' = r ∧ RowHits cx row k c))) ∧
    (drawColumns cx r row d k).2 = (d.2 || decide (∃ c, RowHits cx row k c ∧ pixel d.1 c r = true)) := by
  intro k
  induction k with
  | zero => intro _; simp [drawColumns, RowHits]
  | succ k ih =>
    intro hk
    obtain ⟨ih1, ih2⟩ := ih (by omega)
    have fresh : ¬ RowHits cx row k (wrapColumn (cx + k)) := by
      rintro ⟨j, hj, _, h⟩
      exact absurd (wrapColumn_inj (by omega) (by omega) h) (by omega)
    rw [drawColumns]
    by_cases hb : row.getLsbD (7 - k) = true
    · rw [if_pos hb]
      have grow : ∀ c, RowHits cx row (k + 1) c ↔ RowHits cx row k c ∨ c = wrapColumn (cx + k) := by
        intro c
        constructor
        · rintro ⟨j, hj, h1, h2⟩
          by_cases h : j = k
          · subst h; exact .inr h2.symm
          · exact .inl ⟨j, by omega, h1, h2⟩
        · rintro (⟨j, hj, h⟩ | h)
          · exact ⟨j, by omega, h⟩
          · exact ⟨k, by omega, hb, h.symm⟩
      constructor
      · intro c r'
        rw [pixel_xorPixel, ih1, Bool.xor_assoc]
        congr 1
        by_cases hr : r' = r
        · by_cases hc : c = wrapColumn (cx + k)
          · subst hc; simp [hr, grow, fresh]
          · simp [hr, grow, hc]
        · simp [hr]
      · simp only [xorPixel, ih1, ih2, Bool.or_assoc]
        congr 1
        rw [Bool.eq_iff_iff]
        simp only [fresh, and_false, decide_false, Bool.xor_false, Bool.or_eq_true, decide_eq_true_eq, grow]
        constructor
        · rintro (⟨c, h1, h2⟩ | h)
          · exact ⟨c, .inl h1, h2⟩
          · exact ⟨_, .inr rfl, h⟩
        · rintro ⟨c, h1 | rfl, h2⟩
          · exact .inl ⟨c, h1, h2⟩
          · exact .inr h2
    · rw [if_neg hb]
      have same : ∀ c, RowHits cx row (k + 1) c ↔ RowHits cx row k c := by
        intro c
        constructor
        · rintro ⟨j, hj, h1, h2⟩
          by_cases h : j = k
          · subst h; exact absurd h1 hb
          · exact ⟨j, by omega, h1, h2⟩
        · rintro ⟨j, hj, h⟩
          exact ⟨j, by omega, h⟩
      simp only [same]
      exact ⟨ih1, ih2⟩

/-- A 1 bit of the sprite `rows` drawn at (`cx`, `cy`) falls on pixel (`c`, `r`) (R252, R253). -/
abbrev SpriteHits (cx cy : Nat) (rows : List Byte) (c : Fin 64) (r : Fin 32) : Prop :=
  ∃ k < rows.length, wrapRow (cy + k) = r ∧ RowHits cx (rows.getD k 0#8) 8 c

theorem spriteHits_cons (cx cy : Nat) (row : Byte) (rows : List Byte) (c : Fin 64) (r : Fin 32) :
    SpriteHits cx cy (row :: rows) c r ↔ (r = wrapRow cy ∧ RowHits cx row 8 c) ∨ SpriteHits cx (cy + 1) rows c r := by
  constructor
  · rintro ⟨k, hk, h1, h2⟩
    cases k with
    | zero => exact .inl ⟨h1.symm, by simpa using h2⟩
    | succ k =>
      refine .inr ⟨k, by simpa using hk, ?_, by simpa using h2⟩
      rw [← h1]; congr 1; omega
  · rintro (⟨h1, h2⟩ | ⟨k, hk, h1, h2⟩)
    · exact ⟨0, by simp, h1.symm, by simpa using h2⟩
    · refine ⟨k + 1, by simpa using hk, ?_, by simpa using h2⟩
      rw [← h1]; congr 1; omega

/-- What a whole sprite of at most 32 rows does: it inverts the pixels its 1 bits fall on, and reports whether one of them
was on before the draw. -/
theorem drawRows_spec (cx : Nat) (rows : List Byte) : ∀ (cy : Nat) (d : FrameBuffer × Bool), rows.length ≤ 32 →
    (∀ c r, pixel (drawRows cx cy d rows).1 c r = (pixel d.1 c r ^^ decide (SpriteHits cx cy rows c r))) ∧
    (drawRows cx cy d rows).2 = (d.2 || decide (∃ c r, SpriteHits cx cy rows c r ∧ pixel d.1 c r = true)) := by
  induction rows with
  | nil => intro cy d _; simp [drawRows, SpriteHits]
  | cons row rows ih =>
    intro cy d hl
    simp only [List.length_cons] at hl
    obtain ⟨r1, r2⟩ := drawColumns_spec cx (wrapRow cy) row d 8 (by omega)
    obtain ⟨i1, i2⟩ := ih (cy + 1) (drawColumns cx (wrapRow cy) row d 8) (by omega)
    have later : ∀ c, ¬ SpriteHits cx (cy + 1) rows c (wrapRow cy) := by
      rintro c ⟨k, hk, h, _⟩
      have : (cy + 1 + k) % 32 = cy % 32 := congrArg Fin.val h
      omega
    have cons := spriteHits_cons cx cy row rows
    constructor
    · intro c r
      rw [drawRows, i1, r1, Bool.xor_assoc]
      congr 1
      by_cases hr : r = wrapRow cy
      · have none := later c
        rw [← hr] at none
        simp only [cons, none, or_false, decide_false, Bool.xor_false]
      · simp only [cons, hr, false_and, false_or, decide_false, Bool.false_xor]
    · rw [drawRows, i2, r2, Bool.or_assoc]
      refine congrArg (d.2 || ·) ?_
      have seen : ∀ c r, r ≠ wrapRow cy →
          pixel (drawColumns cx (wrapRow cy) row d 8).1 c r = pixel d.1 c r := fun c r hr => by
        rw [r1, decide_eq_false fun h => hr h.1, Bool.xor_false]
      rw [Bool.eq_iff_iff, Bool.or_eq_true, decide_eq_true_eq, decide_eq_true_eq, decide_eq_true_eq]
      constructor
      · rintro (⟨c, h1, h2⟩ | ⟨c, r, h1, h2⟩)
        · exact ⟨c, wrapRow cy, (cons c _).mpr (.inl ⟨rfl, h1⟩), h2⟩
        · have hr : r ≠ wrapRow cy := by rintro rfl; exact later c h1
          exact ⟨c, r, (cons c r).mpr (.inr h1), by rw [← seen c r hr]; exact h2⟩
      · rintro ⟨c, r, h1, h2⟩
        rcases (cons c r).mp h1 with ⟨rfl, h⟩ | h
        · exact .inl ⟨c, h, h2⟩
        · have hr : r ≠ wrapRow cy := by rintro rfl; exact later c h
          exact .inr ⟨c, r, h, by rw [seen c r hr]; exact h2⟩

end Sys2Proof.Machine
end

