-- ==== Sys2Proof/Laws/Memory.lean ====
section
/-! SUPPORT. Memory (R63): a read after a write, the bytes a sequence of writes leaves, and the canonical form that every
memory operation keeps. -/
namespace Sys2Proof.Machine

@[simp] theorem Memory.read_nil (a : Nat) : Memory.read [] a = initialByte a := rfl

theorem Memory.read_listed (k : Nat) (b : Byte) (m : Memory) (a : Nat) :
    Memory.read ((k, b) :: m) a = if a = k then b else Memory.read m a := rfl

/-- An address below every listed one reads as an unlisted address. -/
theorem Memory.read_below {m : Memory} {a : Nat} (h : ∀ c ∈ m, a < c.1) : Memory.read m a = initialByte a := by
  induction m with
  | nil => rfl
  | cons c m ih =>
    obtain ⟨k, b⟩ := c
    have hk : a < k := h (k, b) (by simp)
    rw [Memory.read_listed, if_neg (by omega), ih fun c hc => h c (by simp [hc])]

theorem Memory.wf_tail {c : Host.Cell} {m : Memory} (h : Memory.wf (c :: m)) : Memory.wf m :=
  ⟨(List.pairwise_cons.mp h.1).2, fun d hd => h.2 d (by simp [hd])⟩

theorem Memory.wf_head_lt {c : Host.Cell} {m : Memory} (h : Memory.wf (c :: m)) : ∀ d ∈ m, c.1 < d.1 :=
  (List.pairwise_cons.mp h.1).1

/-- Listing a cell in front of cells above it keeps the canonical form. -/
theorem Memory.cons_wf {a : Nat} {b : Byte} {m : Memory} (hm : Memory.wf m) (ha : a < 4096)
    (hlt : ∀ c ∈ m, a < c.1) : Memory.wf (Memory.cons a b m) := by
  unfold Memory.cons
  split
  · exact hm
  · rename_i hb
    refine ⟨List.pairwise_cons.mpr ⟨hlt, hm.1⟩, fun c hc => ?_⟩
    rcases List.mem_cons.mp hc with rfl | hc
    · exact ⟨ha, hb⟩
    · exact hm.2 c hc

theorem Memory.read_cons {a : Nat} {b : Byte} {m : Memory} (hlt : ∀ c ∈ m, a < c.1) (k : Nat) :
    Memory.read (Memory.cons a b m) k = if k = a then b else Memory.read m k := by
  unfold Memory.cons
  split
  · rename_i hb
    by_cases hk : k = a
    · subst hk; rw [if_pos rfl, Memory.read_below hlt, hb]
    · rw [if_neg hk]
  · rfl

/-- The cells of a memory after a write lie at the written address or where cells lay before. -/
theorem Memory.mem_write {m : Memory} {a : Nat} {b : Byte} {c : Host.Cell} (h : c ∈ Memory.write m a b) :
    c.1 = a ∨ c ∈ m := by
  have cons_case : ∀ {m' : Memory}, c ∈ Memory.cons a b m' → c.1 = a ∨ c ∈ m' := by
    intro m' h
    unfold Memory.cons at h
    split at h
    · exact .inr h
    · rcases List.mem_cons.mp h with rfl | h
      · exact .inl rfl
      · exact .inr h
  induction m with
  | nil => exact cons_case h
  | cons d m ih =>
    obtain ⟨k, e⟩ := d
    rw [Memory.write] at h
    split at h
    · exact cons_case h
    · split at h
      · exact (cons_case h).imp_right fun h => List.mem_cons_of_mem _ h
      · rcases List.mem_cons.mp h with rfl | h
        · exact .inr (by simp)
        · exact (ih h).imp_right fun h => List.mem_cons_of_mem _ h

/-- A write keeps the canonical form. -/
theorem Memory.write_wf {m : Memory} {a : Nat} (b : Byte) (hm : Memory.wf m) (ha : a < 4096) :
    Memory.wf (Memory.write m a b) := by
  induction m with
  | nil => exact Memory.cons_wf hm ha (by simp)
  | cons d m ih =>
    obtain ⟨k, e⟩ := d
    have above := Memory.wf_head_lt hm
    rw [Memory.write]
    split
    · rename_i hlt
      refine Memory.cons_wf hm ha fun c hc => ?_
      rcases List.mem_cons.mp hc with rfl | hc
      · exact hlt
      · exact lt_trans hlt (above c hc)
    · split
      · rename_i _ heq
        subst heq
        exact Memory.cons_wf (Memory.wf_tail hm) ha above
      · have tail := ih (Memory.wf_tail hm)
        refine ⟨List.pairwise_cons.mpr ⟨fun c hc => ?_, tail.1⟩, fun c hc => ?_⟩
        · rcases Memory.mem_write hc with h | h
          · rw [h]; omega
          · exact above c h
        · rcases List.mem_cons.mp hc with rfl | hc
          · exact hm.2 _ (by simp)
          · exact tail.2 c hc

/-- A read after a write: the byte written at its address, and every other address as it was (R63). -/
theorem Memory.read_write {m : Memory} (hm : Memory.wf m) (a : Nat) (b : Byte) (k : Nat) :
    Memory.read (Memory.write m a b) k = if k = a then b else Memory.read m k := by
  induction m with
  | nil => exact Memory.read_cons (by simp) k
  | cons d m ih =>
    obtain ⟨j, e⟩ := d
    have above := Memory.wf_head_lt hm
    rw [Memory.write]
    split
    · rename_i hlt
      refine Memory.read_cons (fun c hc => ?_) k
      rcases List.mem_cons.mp hc with rfl | hc
      · exact hlt
      · exact lt_trans hlt (above c hc)
    · split
      · rename_i _ heq
        subst heq
        rw [Memory.read_cons above, Memory.read_listed]
        split <;> rfl
      · rename_i hlt hne
        rw [Memory.read_listed, ih (Memory.wf_tail hm), Memory.read_listed]
        by_cases hk : k = j
        · rw [if_pos hk, if_neg (by omega), if_pos hk]
        · rw [if_neg hk, if_neg hk]

/-- A sequence of writes inside the address space keeps the canonical form. -/
theorem Memory.storeBytes_wf {bs : List Byte} : ∀ {m : Memory} {a : Nat}, Memory.wf m →
    a + bs.length ≤ 4096 → Memory.wf (Memory.storeBytes m a bs) := by
  induction bs with
  | nil => intro m a hm _; exact hm
  | cons b bs ih =>
    intro m a hm ha
    simp only [List.length_cons] at ha
    exact ih (Memory.write_wf b hm (by omega)) (by omega)

/-- A sequence of bytes read back: each where it was written, and every other address as it was. -/
theorem Memory.read_storeBytes {bs : List Byte} : ∀ {m : Memory} {a : Nat}, Memory.wf m →
    a + bs.length ≤ 4096 → ∀ k, Memory.read (Memory.storeBytes m a bs) k =
      if a ≤ k ∧ k < a + bs.length then bs.getD (k - a) 0#8 else Memory.read m k := by
  induction bs with
  | nil => intro m a _ _ k; simp [Memory.storeBytes]
  | cons b bs ih =>
    intro m a hm ha k
    simp only [List.length_cons] at ha ⊢
    rw [Memory.storeBytes, ih (Memory.write_wf b hm (by omega)) (by omega) k, Memory.read_write hm]
    by_cases h0 : k = a
    · subst h0
      rw [if_neg (by omega), if_pos rfl, if_pos (by omega)]
      simp
    · by_cases hin : a + 1 ≤ k ∧ k < a + 1 + bs.length
      · obtain ⟨j, rfl⟩ : ∃ j, k = a + 1 + j := ⟨k - (a + 1), by omega⟩
        rw [if_pos hin, if_pos (by omega), show a + 1 + j - a = j + 1 by omega,
          show a + 1 + j - (a + 1) = j by omega, List.getD_cons_succ]
      · rw [if_neg hin, if_neg h0, if_neg (by omega)]

@[simp] theorem Memory.readBytes_length (m : Memory) (a n : Nat) : (Memory.readBytes m a n).length = n := by
  induction n generalizing a with
  | zero => rfl
  | succ n ih => simp [Memory.readBytes, ih]

/-- The bytes read from `a` upward are those at `a`, `a + 1` and so on (R62). -/
theorem Memory.readBytes_getD (m : Memory) (a n k : Nat) (hk : k < n) :
    (Memory.readBytes m a n).getD k 0#8 = Memory.read m (a + k) := by
  induction n generalizing a k with
  | zero => omega
  | succ n ih =>
    cases k with
    | zero => simp [Memory.readBytes]
    | succ k =>
      rw [Memory.readBytes, List.getD_cons_succ, ih _ _ (by omega)]
      congr 1; omega

/-- Reset memory, which lists nothing, is canonical. -/
theorem State.reset_mem_wf : Memory.wf State.reset.mem := ⟨List.Pairwise.nil, by simp [State.reset]⟩

/-- In the canonical form, memories that read alike at every address are equal. -/
theorem Memory.wf_ext : ∀ {m m' : Memory}, Memory.wf m → Memory.wf m' →
    (∀ a, Memory.read m a = Memory.read m' a) → m = m' := by
  have differs : ∀ {k : Nat} {b : Byte} {m m' : Memory}, Memory.wf ((k, b) :: m) →
      (∀ c ∈ m', k < c.1) → Memory.read ((k, b) :: m) k ≠ Memory.read m' k := by
    intro k b m m' hm hlt h
    rw [Memory.read_listed, if_pos rfl, Memory.read_below hlt] at h
    exact (hm.2 (k, b) (by simp)).2 h
  intro m
  induction m with
  | nil =>
    intro m' _ hm' h
    cases m' with
    | nil => rfl
    | cons d m' =>
      exact absurd (h d.1).symm (differs (m := m') (b := d.2) hm' (by simp))
  | cons c m ih =>
    intro m' hm hm' h
    obtain ⟨k, b⟩ := c
    cases m' with
    | nil => exact absurd (h k) (differs hm (by simp))
    | cons d m' =>
      obtain ⟨j, e⟩ := d
      rcases lt_trichotomy k j with hlt | rfl | hlt
      · refine absurd (h k) (differs hm fun c hc => ?_)
        rcases List.mem_cons.mp hc with rfl | hc
        · exact hlt
        · exact lt_trans hlt (Memory.wf_head_lt hm' c hc)
      · have hb : b = e := by simpa [Memory.read_listed] using h k
        subst hb
        refine congrArg _ (ih (Memory.wf_tail hm) (Memory.wf_tail hm') fun a => ?_)
        by_cases ha : a = k
        · subst ha
          rw [Memory.read_below (Memory.wf_head_lt hm), Memory.read_below (Memory.wf_head_lt hm')]
        · simpa [Memory.read_listed, ha] using h a
      · refine absurd (h j).symm (differs hm' fun c hc => ?_)
        rcases List.mem_cons.mp hc with rfl | hc
        · exact hlt
        · exact lt_trans hlt (Memory.wf_head_lt hm c hc)

end Sys2Proof.Machine
end

