-- ==== Sys2Proof/Laws/Ops.lean ====
section
/-! SUPPORT. One lemma for each shared operation: everything that it can do. -/
namespace Sys2Proof.Machine

/-- Stopping writes LIFE and STOP and nothing else (R43). -/
theorem State.halt_eq (s : State) (c : Cause) (pc : Word) (w : Option Word) :
    s.halt c pc w = { s with life := .stopped, stop := some ⟨c, pc, w⟩ } := rfl

/-- A fault is a next state: the engine stopped with the record of the instruction (R303). -/
theorem raiseFault_eq (c : Cause) (i : Instr) (s : State) :
    raiseFault c i s = .next { s with
      life := .stopped, stop := some ⟨c, s.pc - 2#16, some (encodeWord i)⟩ } := rfl

theorem inRange_iff (a n : Nat) : inRange a n = true ↔ n = 0 ∨ a + n ≤ 4096 := by
  simp [inRange]

/-- A checked access has its effect when all its addresses are in range, and faults otherwise (R64). -/
theorem withAccess_cases {i : Instr} {a n : Nat} {s e t : State} (h : withAccess i a n s e = .next t) :
    ((n = 0 ∨ a + n ≤ 4096) ∧ t = e) ∨
    (n ≠ 0 ∧ 4096 < a + n ∧ t = s.halt .memoryFault (s.pc - 2#16) (some (encodeWord i))) := by
  unfold withAccess at h
  split at h
  · rename_i hr
    cases h
    exact .inl ⟨(inRange_iff a n).mp hr, rfl⟩
  · rename_i hr
    rw [inRange_iff] at hr
    cases h
    exact .inr ⟨by omega, by omega, rfl⟩

theorem withAccess_inside {i : Instr} {a n : Nat} {s e : State} (h : n = 0 ∨ a + n ≤ 4096) :
    withAccess i a n s e = .next e := by
  rw [withAccess, if_pos ((inRange_iff a n).mpr h)]

theorem withAccess_outside {i : Instr} {a n : Nat} {s e : State} (h0 : n ≠ 0) (h : 4096 < a + n) :
    withAccess i a n s e = raiseFault .memoryFault i s := by
  rw [withAccess, if_neg]
  rw [inRange_iff]
  omega

/-- What every address reads as after V0 to Vx are stored from I upward (R224). -/
theorem State.read_storeRegs {s : State} {x : Reg} (hm : Memory.wf s.mem) (hi : s.i.toNat + x.val < 4096) (a : Nat) :
    Memory.read (Memory.storeBytes s.mem s.addrI (s.regsUpTo x)) a = s.byteAfterStore x a := by
  have hx := x.isLt
  have hr := Memory.read_storeBytes (bs := s.regsUpTo x) (a := s.i.toNat) hm (by simp; omega) a
  rw [State.regsUpTo_length] at hr
  refine hr.trans ?_
  unfold State.byteAfterStore
  by_cases h : s.i.toNat ≤ a ∧ a ≤ s.i.toNat + x.val
  · rw [if_pos (by omega), dif_pos h]
    exact State.regsUpTo_getD s x ⟨a - s.i.toNat, by omega⟩ (by simp only; omega)
  · rw [if_neg (by omega), dif_neg h]

/-- What every address reads as after the digits of Vx are stored at I, I + 1 and I + 2 (R223). -/
theorem State.read_storeDigits {s : State} {x : Reg} (hm : Memory.wf s.mem) (hi : s.i.toNat + 2 < 4096) (a : Nat) :
    Memory.read (Memory.storeBytes s.mem s.addrI (bcdDigits (s.readV x))) a = s.byteAfterDigits x a := by
  have hr := Memory.read_storeBytes (bs := bcdDigits (s.readV x)) (a := s.i.toNat) hm (by simp; omega) a
  rw [bcdDigits_length] at hr
  refine hr.trans ?_
  unfold State.byteAfterDigits
  by_cases h : s.i.toNat ≤ a ∧ a < s.i.toNat + 3
  · obtain rfl | rfl | rfl : a = s.i.toNat ∨ a = s.i.toNat + 1 ∨ a = s.i.toNat + 2 := by omega
    all_goals simp [bcdDigits]
  · rw [if_neg h, if_neg (by omega), if_neg (by omega), if_neg (by omega)]

/-- `Push` and jump, the stack not full (R34, R152). -/
theorem pushAndJump_room {i : Instr} {target : Word} {s : State} (h : s.sp.toNat < 16) :
    pushAndJump i target s =
      .next (((s.setSlot ⟨s.sp.toNat, h⟩ s.pc).setSp (s.sp + 1#8)).setPc target) := by
  have : s.sp ≠ 16#8 := by
    intro h'
    simp [h'] at h
  rw [pushAndJump, if_neg this, dif_pos h]

/-- Everything `Push` and jump can do when it answers a next state. -/
theorem pushAndJump_cases {i : Instr} {target : Word} {s t : State} (h : pushAndJump i target s = .next t) :
    (s.sp = 16#8 ∧ t = s.halt .stackOverflow (s.pc - 2#16) (some (encodeWord i))) ∨
    ∃ hlt : s.sp.toNat < 16, t = ((s.setSlot ⟨s.sp.toNat, hlt⟩ s.pc).setSp (s.sp + 1#8)).setPc target := by
  unfold pushAndJump at h
  split at h
  · rename_i h16
    cases h
    exact .inl ⟨h16, rfl⟩
  · split at h
    · rename_i hlt
      cases h
      exact .inr ⟨hlt, rfl⟩
    · cases h

/-- A byte that is not zero, lowered by one, as a number: SP after a pop, a timer after a tick. -/
theorem byte_sub_one {n : Byte} (h : n ≠ 0#8) : (n - 1#8).toNat = n.toNat - 1 := by
  have : n.toNat ≠ 0 := fun h' => h (BitVec.eq_of_toNat_eq (by simpa using h'))
  have := n.isLt
  simp only [BitVec.toNat_sub, BitVec.toNat_ofNat]
  omega

/-- `Pop` into PC, the stack not empty (R35, R150). -/
theorem popAndJump_held {i : Instr} {s : State} (h0 : s.sp ≠ 0#8) (h : (s.sp - 1#8).toNat < 16) :
    popAndJump i s = .next ((s.setSp (s.sp - 1#8)).setPc s.stack[(s.sp - 1#8).toNat]) := by
  rw [popAndJump, if_neg h0, dif_pos h]

/-- Everything `Pop` into PC can do when it answers a next state. -/
theorem popAndJump_cases {i : Instr} {s t : State} (h : popAndJump i s = .next t) :
    (s.sp = 0#8 ∧ t = s.halt .stackUnderflow (s.pc - 2#16) (some (encodeWord i))) ∨
    s.sp ≠ 0#8 ∧ ∃ hlt : (s.sp - 1#8).toNat < 16,
      t = (s.setSp (s.sp - 1#8)).setPc s.stack[(s.sp - 1#8).toNat] := by
  unfold popAndJump at h
  split at h
  · rename_i h0
    cases h
    exact .inl ⟨h0, rfl⟩
  · rename_i h0
    split at h
    · rename_i hlt
      cases h
      exact .inr ⟨h0, hlt, rfl⟩
    · cases h

/-- A skip writes PC and nothing else (R26). -/
theorem State.skipIf_eq (s : State) (c : Bool) :
    s.skipIf c = { s with pc := if c then s.pc + 2#16 else s.pc } := by
  cases c <;> rfl

/-- The tone events that writing `b` to ST makes when it held `a` (R274, R288). -/
def toneEdge (a b : Byte) : List OutEvent :=
  if a = 0#8 ∧ b ≠ 0#8 then [.toneStart] else if a ≠ 0#8 ∧ b = 0#8 then [.toneStop] else []

/-- Writing ST changes ST and the trace and nothing else (R274, R288). -/
theorem State.writeSt_eq (s : State) (b : Byte) :
    s.writeSt b = { s with st := b, events := s.events ++ toneEdge s.st b } := by
  unfold State.writeSt toneEdge
  split
  · rfl
  · split
    · rfl
    · simp [State.setSt]

/-- A tick lowers a timer by one, not below zero (R283). -/
@[simp] theorem decrement_toNat (b : Byte) : (decrement b).toNat = b.toNat - 1 := by
  unfold decrement
  by_cases h : b = 0#8
  · simp [h]
  · rw [if_neg h, byte_sub_one h]

/-- A tick changes the timers and the trace and nothing else (R283). -/
theorem State.tickTimers_eq (s : State) :
    s.tickTimers = { s with
      dt := decrement s.dt, st := decrement s.st, events := s.events ++ toneEdge s.st (decrement s.st) } := by
  unfold State.tickTimers
  rw [State.writeSt_eq]
  rfl

/-- A key press changes a register only to end a wait (R276, R278). -/
theorem State.endWait_cases (s : State) (k : Key) :
    (∃ x, s.life = .running ∧ s.wait = some x ∧ s.endWait k = (s.writeV x (BitVec.ofNat 8 k.val)).setWait none) ∨
    (¬ s.Waiting ∧ s.endWait k = s) := by
  unfold State.endWait
  split
  · rename_i x hl hw
    exact .inl ⟨x, hl, hw, rfl⟩
  · rename_i h
    refine .inr ⟨?_, rfl⟩
    rintro ⟨hl, hw⟩
    obtain ⟨x, hx⟩ := Option.ne_none_iff_exists'.mp hw
    exact h x hl hx

end Sys2Proof.Machine
end

