-- ==== Sys2Proof/Laws/PerInstr.lean ====
section
/-! SUPPORT. One statement for each instruction as syntax: its word has its row's fixed bits (opcode_table.json: the
word masked with the row's mask is the row's match). -/
namespace Sys2Proof

/-- The `mask` of an instruction's row in spec/opcode_table.json. -/
def Instr.rowMask : Instr → Word
  | .cls => 0xFFFF#16
  | .ret => 0xFFFF#16
  | .jp _ => 0xF000#16
  | .call _ => 0xF000#16
  | .seImm _ _ => 0xF000#16
  | .sneImm _ _ => 0xF000#16
  | .seReg _ _ => 0xF00F#16
  | .ldImm _ _ => 0xF000#16
  | .addImm _ _ => 0xF000#16
  | .ldReg _ _ => 0xF00F#16
  | .orReg _ _ => 0xF00F#16
  | .andReg _ _ => 0xF00F#16
  | .xorReg _ _ => 0xF00F#16
  | .addReg _ _ => 0xF00F#16
  | .sub _ _ => 0xF00F#16
  | .shr _ _ => 0xF00F#16
  | .subn _ _ => 0xF00F#16
  | .shl _ _ => 0xF00F#16
  | .sneReg _ _ => 0xF00F#16
  | .ldI _ => 0xF000#16
  | .jpV0 _ => 0xF000#16
  | .rnd _ _ => 0xF000#16
  | .drw _ _ _ => 0xF000#16
  | .skp _ => 0xF0FF#16
  | .sknp _ => 0xF0FF#16
  | .ldVxDt _ => 0xF0FF#16
  | .ldVxK _ => 0xF0FF#16
  | .ldDt _ => 0xF0FF#16
  | .ldSt _ => 0xF0FF#16
  | .addI _ => 0xF0FF#16
  | .ldF _ => 0xF0FF#16
  | .ldB _ => 0xF0FF#16
  | .ldMemVx _ => 0xF0FF#16
  | .ldVxMem _ => 0xF0FF#16
  | .nop0 _ => 0xF000#16
  | .nop5 _ _ _ => 0xF000#16
  | .nop8 _ _ _ => 0xF000#16
  | .nop9 _ _ _ => 0xF000#16
  | .nopE _ _ => 0xF000#16
  | .nopF _ _ => 0xF000#16

/-- The `match` of an instruction's row in spec/opcode_table.json. -/
def Instr.rowMatch : Instr → Word
  | .cls => 0x00E0#16
  | .ret => 0x00EE#16
  | .jp _ => 0x1000#16
  | .call _ => 0x2000#16
  | .seImm _ _ => 0x3000#16
  | .sneImm _ _ => 0x4000#16
  | .seReg _ _ => 0x5000#16
  | .ldImm _ _ => 0x6000#16
  | .addImm _ _ => 0x7000#16
  | .ldReg _ _ => 0x8000#16
  | .orReg _ _ => 0x8001#16
  | .andReg _ _ => 0x8002#16
  | .xorReg _ _ => 0x8003#16
  | .addReg _ _ => 0x8004#16
  | .sub _ _ => 0x8005#16
  | .shr _ _ => 0x8006#16
  | .subn _ _ => 0x8007#16
  | .shl _ _ => 0x800E#16
  | .sneReg _ _ => 0x9000#16
  | .ldI _ => 0xA000#16
  | .jpV0 _ => 0xB000#16
  | .rnd _ _ => 0xC000#16
  | .drw _ _ _ => 0xD000#16
  | .skp _ => 0xE09E#16
  | .sknp _ => 0xE0A1#16
  | .ldVxDt _ => 0xF007#16
  | .ldVxK _ => 0xF00A#16
  | .ldDt _ => 0xF015#16
  | .ldSt _ => 0xF018#16
  | .addI _ => 0xF01E#16
  | .ldF _ => 0xF029#16
  | .ldB _ => 0xF033#16
  | .ldMemVx _ => 0xF055#16
  | .ldVxMem _ => 0xF065#16
  | .nop0 _ => 0x0000#16
  | .nop5 _ _ _ => 0x5000#16
  | .nop8 _ _ _ => 0x8000#16
  | .nop9 _ _ _ => 0x9000#16
  | .nopE _ _ => 0xE000#16
  | .nopF _ _ => 0xF000#16

/-- Masking a concatenation masks its parts. -/
theorem append_and_append {m n : Nat} (a c : BitVec m) (b d : BitVec n) :
    (a ++ b) &&& (c ++ d) = (a &&& c) ++ (b &&& d) := by
  apply BitVec.eq_of_getLsbD_eq
  intro i hi
  simp only [BitVec.getLsbD_and, BitVec.getLsbD_append]
  split <;> rfl

/-- A nibble masked with F is the nibble. -/
theorem nibble_and_ones (a : Nibble) : a &&& 0xF#4 = a := BitVec.and_allOnes

/-- A byte masked with FF is the byte. -/
theorem byte_and_ones (a : Byte) : a &&& 0xFF#8 = a := BitVec.and_allOnes

theorem encodeNnn_masked (f : Nibble) (a : Addr12) : encodeNnn f a &&& 0xF000#16 = encodeNnn f 0 := by
  have := append_and_append f 0xF#4 a 0#12
  rwa [nibble_and_ones, BitVec.and_zero] at this

theorem encodeXkk_masked_family (f : Nibble) (x : Reg) (kk : Byte) :
    encodeXkk f x kk &&& 0xF000#16 = encodeNnn f 0 := encodeNnn_masked f _

theorem encodeXyn_masked_family (f : Nibble) (x y : Reg) (n : Nibble) :
    encodeXyn f x y n &&& 0xF000#16 = encodeNnn f 0 := encodeNnn_masked f _

theorem encodeXkk_masked (f : Nibble) (x : Reg) (kk : Byte) :
    encodeXkk f x kk &&& 0xF0FF#16 = encodeXkk f 0 kk := by
  have := append_and_append f 0xF#4 (regField x ++ kk) (0#4 ++ 0xFF#8)
  rwa [nibble_and_ones, append_and_append (regField x), BitVec.and_zero, byte_and_ones] at this

theorem encodeXyn_masked (f : Nibble) (x y : Reg) (n : Nibble) :
    encodeXyn f x y n &&& 0xF00F#16 = encodeXyn f 0 0 n := by
  have := append_and_append f 0xF#4 (regField x ++ (regField y ++ n)) (0#4 ++ (0#4 ++ 0xF#4))
  rwa [nibble_and_ones, append_and_append (regField x), append_and_append (regField y), BitVec.and_zero, BitVec.and_zero,
    nibble_and_ones] at this

/-- The word of `i` has the fixed bits of its row (R93, opcode_table.json). -/
def Laws.EncodesItsRow.Statement (i : Instr) : Prop := encodeWord i &&& i.rowMask = i.rowMatch

theorem Laws.EncodesItsRow.cls : Laws.EncodesItsRow.Statement .cls :=
  by unfold Laws.EncodesItsRow.Statement; decide

theorem Laws.EncodesItsRow.ret : Laws.EncodesItsRow.Statement .ret :=
  by unfold Laws.EncodesItsRow.Statement; decide

theorem Laws.EncodesItsRow.jp (nnn : Addr12) : Laws.EncodesItsRow.Statement (.jp nnn) :=
  (encodeNnn_masked _ _).trans rfl

theorem Laws.EncodesItsRow.call (nnn : Addr12) : Laws.EncodesItsRow.Statement (.call nnn) :=
  (encodeNnn_masked _ _).trans rfl

theorem Laws.EncodesItsRow.seImm (x : Reg) (kk : Byte) : Laws.EncodesItsRow.Statement (.seImm x kk) :=
  (encodeXkk_masked_family _ _ _).trans rfl

theorem Laws.EncodesItsRow.sneImm (x : Reg) (kk : Byte) : Laws.EncodesItsRow.Statement (.sneImm x kk) :=
  (encodeXkk_masked_family _ _ _).trans rfl

theorem Laws.EncodesItsRow.seReg (x y : Reg) : Laws.EncodesItsRow.Statement (.seReg x y) :=
  (encodeXyn_masked _ _ _ _).trans rfl

theorem Laws.EncodesItsRow.ldImm (x : Reg) (kk : Byte) : Laws.EncodesItsRow.Statement (.ldImm x kk) :=
  (encodeXkk_masked_family _ _ _).trans rfl

theorem Laws.EncodesItsRow.addImm (x : Reg) (kk : Byte) : Laws.EncodesItsRow.Statement (.addImm x kk) :=
  (encodeXkk_masked_family _ _ _).trans rfl

theorem Laws.EncodesItsRow.ldReg (x y : Reg) : Laws.EncodesItsRow.Statement (.ldReg x y) :=
  (encodeXyn_masked _ _ _ _).trans rfl

theorem Laws.EncodesItsRow.orReg (x y : Reg) : Laws.EncodesItsRow.Statement (.orReg x y) :=
  (encodeXyn_masked _ _ _ _).trans rfl

theorem Laws.EncodesItsRow.andReg (x y : Reg) : Laws.EncodesItsRow.Statement (.andReg x y) :=
  (encodeXyn_masked _ _ _ _).trans rfl

theorem Laws.EncodesItsRow.xorReg (x y : Reg) : Laws.EncodesItsRow.Statement (.xorReg x y) :=
  (encodeXyn_masked _ _ _ _).trans rfl

theorem Laws.EncodesItsRow.addReg (x y : Reg) : Laws.EncodesItsRow.Statement (.addReg x y) :=
  (encodeXyn_masked _ _ _ _).trans rfl

theorem Laws.EncodesItsRow.sub (x y : Reg) : Laws.EncodesItsRow.Statement (.sub x y) :=
  (encodeXyn_masked _ _ _ _).trans rfl

theorem Laws.EncodesItsRow.shr (x y : Reg) : Laws.EncodesItsRow.Statement (.shr x y) :=
  (encodeXyn_masked _ _ _ _).trans rfl

theorem Laws.EncodesItsRow.subn (x y : Reg) : Laws.EncodesItsRow.Statement (.subn x y) :=
  (encodeXyn_masked _ _ _ _).trans rfl

theorem Laws.EncodesItsRow.shl (x y : Reg) : Laws.EncodesItsRow.Statement (.shl x y) :=
  (encodeXyn_masked _ _ _ _).trans rfl

theorem Laws.EncodesItsRow.sneReg (x y : Reg) : Laws.EncodesItsRow.Statement (.sneReg x y) :=
  (encodeXyn_masked _ _ _ _).trans rfl

theorem Laws.EncodesItsRow.ldI (nnn : Addr12) : Laws.EncodesItsRow.Statement (.ldI nnn) :=
  (encodeNnn_masked _ _).trans rfl

theorem Laws.EncodesItsRow.jpV0 (nnn : Addr12) : Laws.EncodesItsRow.Statement (.jpV0 nnn) :=
  (encodeNnn_masked _ _).trans rfl

theorem Laws.EncodesItsRow.rnd (x : Reg) (kk : Byte) : Laws.EncodesItsRow.Statement (.rnd x kk) :=
  (encodeXkk_masked_family _ _ _).trans rfl

theorem Laws.EncodesItsRow.drw (x y : Reg) (n : Nibble) : Laws.EncodesItsRow.Statement (.drw x y n) :=
  (encodeXyn_masked_family _ _ _ _).trans rfl

theorem Laws.EncodesItsRow.skp (x : Reg) : Laws.EncodesItsRow.Statement (.skp x) :=
  (encodeXkk_masked _ _ _).trans rfl

theorem Laws.EncodesItsRow.sknp (x : Reg) : Laws.EncodesItsRow.Statement (.sknp x) :=
  (encodeXkk_masked _ _ _).trans rfl

theorem Laws.EncodesItsRow.ldVxDt (x : Reg) : Laws.EncodesItsRow.Statement (.ldVxDt x) :=
  (encodeXkk_masked _ _ _).trans rfl

theorem Laws.EncodesItsRow.ldVxK (x : Reg) : Laws.EncodesItsRow.Statement (.ldVxK x) :=
  (encodeXkk_masked _ _ _).trans rfl

theorem Laws.EncodesItsRow.ldDt (x : Reg) : Laws.EncodesItsRow.Statement (.ldDt x) :=
  (encodeXkk_masked _ _ _).trans rfl

theorem Laws.EncodesItsRow.ldSt (x : Reg) : Laws.EncodesItsRow.Statement (.ldSt x) :=
  (encodeXkk_masked _ _ _).trans rfl

theorem Laws.EncodesItsRow.addI (x : Reg) : Laws.EncodesItsRow.Statement (.addI x) :=
  (encodeXkk_masked _ _ _).trans rfl

theorem Laws.EncodesItsRow.ldF (x : Reg) : Laws.EncodesItsRow.Statement (.ldF x) :=
  (encodeXkk_masked _ _ _).trans rfl

theorem Laws.EncodesItsRow.ldB (x : Reg) : Laws.EncodesItsRow.Statement (.ldB x) :=
  (encodeXkk_masked _ _ _).trans rfl

theorem Laws.EncodesItsRow.ldMemVx (x : Reg) : Laws.EncodesItsRow.Statement (.ldMemVx x) :=
  (encodeXkk_masked _ _ _).trans rfl

theorem Laws.EncodesItsRow.ldVxMem (x : Reg) : Laws.EncodesItsRow.Statement (.ldVxMem x) :=
  (encodeXkk_masked _ _ _).trans rfl

theorem Laws.EncodesItsRow.nop0 (nnn : Addr12) : Laws.EncodesItsRow.Statement (.nop0 nnn) :=
  (encodeNnn_masked _ _).trans rfl

theorem Laws.EncodesItsRow.nop5 (x y : Reg) (n : Nibble) : Laws.EncodesItsRow.Statement (.nop5 x y n) :=
  (encodeXyn_masked_family _ _ _ _).trans rfl

theorem Laws.EncodesItsRow.nop8 (x y : Reg) (n : Nibble) : Laws.EncodesItsRow.Statement (.nop8 x y n) :=
  (encodeXyn_masked_family _ _ _ _).trans rfl

theorem Laws.EncodesItsRow.nop9 (x y : Reg) (n : Nibble) : Laws.EncodesItsRow.Statement (.nop9 x y n) :=
  (encodeXyn_masked_family _ _ _ _).trans rfl

theorem Laws.EncodesItsRow.nopE (x : Reg) (kk : Byte) : Laws.EncodesItsRow.Statement (.nopE x kk) :=
  (encodeXkk_masked_family _ _ _).trans rfl

theorem Laws.EncodesItsRow.nopF (x : Reg) (kk : Byte) : Laws.EncodesItsRow.Statement (.nopF x kk) :=
  (encodeXkk_masked_family _ _ _).trans rfl

end Sys2Proof
end

