-- ==== Sys2Proof/Laws/Step.lean ====
section
/-! SUPPORT. Everything a step can do: whose turn it was, and what that agent did. -/
namespace Sys2Proof.Machine

/-- The loop moves only when it has a step (R120). -/
theorem loopTurn_cases {s t : State} (h : loopTurn s = .next t) : s.LoopReady ∧ cycle s = .next t := by
  unfold loopTurn at h
  split at h
  · rename_i hl hw
    exact ⟨⟨hl, hw⟩, h⟩
  all_goals cases h

theorem loopTurn_ready {s : State} (h : s.LoopReady) : loopTurn s = cycle s := by
  unfold loopTurn
  rw [h.1, h.2]

/-- One cycle: the halt at a PC of 4095 or more, or the decoded instruction after the fetch's advance (R121, R122). -/
theorem cycle_cases {s t : State} (h : cycle s = .next t) :
    (4095 ≤ s.pc.toNat ∧ t = s.halt .pcOutOfRange s.pc none) ∨
    (s.pc.toNat < 4095 ∧ exec (decodeWord (Memory.readWord s.mem s.pc.toNat)) (s.setPc (s.pc + 2#16)) = .next t) := by
  unfold cycle at h
  split at h
  · rename_i hpc
    cases h
    exact .inl ⟨hpc, rfl⟩
  · exact .inr ⟨by omega, h⟩

/-- The tick moves only while Running (R282). -/
theorem tickTurn_cases {s t : State} (h : tickTurn s = .next t) : s.life = .running ∧ t = s.tickTimers := by
  unfold tickTurn at h
  split at h
  · rename_i hl
    cases h
    exact ⟨hl, rfl⟩
  all_goals cases h

/-- Everything the host can do (R276, R279, R321). -/
theorem hostTurn_cases {e : HostEvent} {s t : State} (h : hostTurn e s = .next t) :
    (t = s ∧ ((e = .start ∧ s.life ≠ .ready) ∨ (e = .stop ∧ s.life ≠ .running))) ∨
    (e = .start ∧ s.life = .ready ∧ t = s.setLife .running) ∨
    (e = .stop ∧ s.life = .running ∧ t = (s.setWait none).halt .stopRequested s.pc none) ∨
    (∃ k : Key, e = .keyPress k.val ∧ t = ((s.setKey k true).setLastKey (some k)).endWait k) ∨
    (∃ k : Key, e = .keyRelease k.val ∧ t = s.setKey k false) := by
  cases e with
  | start =>
    unfold hostTurn hostStart at h
    cases hl : s.life <;> simp only [hl] at h <;> cases h <;> simp
  | stop =>
    unfold hostTurn hostStop at h
    cases hl : s.life <;> simp only [hl] at h <;> cases h <;> simp
  | keyPress code =>
    unfold hostTurn keyPress at h
    simp only at h
    split at h
    · rename_i hk
      cases h
      exact .inr (.inr (.inr (.inl ⟨⟨code, hk⟩, rfl, rfl⟩)))
    · cases h
  | keyRelease code =>
    unfold hostTurn keyRelease at h
    simp only at h
    split at h
    · rename_i hk
      cases h
      exact .inr (.inr (.inr (.inr ⟨⟨code, hk⟩, rfl, rfl⟩)))
    · cases h

/-- Whose turn a step was: the loop's with nothing scheduled, or the first scheduled turn's. -/
theorem step_cases {s t : State} (h : step s = .next t) :
    (s.schedule = [] ∧ loopTurn s = .next t) ∨
    ∃ u rest, s.schedule = u :: rest ∧ takeTurn u (s.setSchedule rest) = .next t := by
  unfold step advanceOne at h
  split at h
  · rename_i hs
    exact .inl ⟨hs, h⟩
  · rename_i u rest hs
    exact .inr ⟨u, rest, hs, h⟩

end Sys2Proof.Machine
end

