-- ==== Sys2Proof/Tests/Slice0.lean ====
section
/-! SUPPORT. Tests. Every expected value is the spec's (95_test_vectors.md, parts A and B, or the rule named); the witnesses
at the end show that the hypotheses of the obligations can be met together, clause by clause, at boundary values. -/
namespace Sys2Proof.Tests
open Sys2Proof Sys2Proof.Machine

/-- The next state, if there is one. -/
def nx : Result → Option State
  | .next s => some s
  | _ => none

/-- S0 of 95_test_vectors.md. -/
def s0 : State := State.reset.setLife .running

/-- One step that fetches and runs the word `w` at PC. -/
def run (w : Nat) (s : State) : Option State := nx (step (s.withFetchWord 16 w))

/-- Memory with the bytes `l` from `a` upward and nothing else written. -/
def memAt (a : Nat) (l : List Byte) : Memory := Memory.storeBytes [] a l

/-- The pixels that are on, as (column, row), by column. -/
def lit (f : FrameBuffer) : List (Nat × Nat) :=
  (List.finRange 64).flatMap (fun c => (List.finRange 32).filterMap (fun r =>
    if pixel f c r then some (c.val, r.val) else none))

/-! Well-formedness: each check refuses the term that would hold a listed instruction's selecting value (R100, R102). -/

theorem test_illformed_nop0 : (Instr.nop0 0x0E0).wellFormed = false ∧ (Instr.nop0 0x0EE).wellFormed = false ∧
    (Instr.nop0 0x0E1).wellFormed = true := by decide

theorem test_illformed_nop5_nop9 : (Instr.nop5 1 2 0).wellFormed = false ∧ (Instr.nop9 1 2 0).wellFormed = false ∧
    (Instr.nop5 1 2 1).wellFormed = true ∧ (Instr.nop9 1 2 0xF).wellFormed = true := by decide

theorem test_illformed_nop8 : ([0, 1, 2, 3, 4, 5, 6, 7, 0xE] : List Nibble).all (fun n =>
      !(Instr.nop8 1 2 n).wellFormed) = true ∧
    ([8, 9, 0xA, 0xB, 0xC, 0xD, 0xF] : List Nibble).all (fun n => (Instr.nop8 1 2 n).wellFormed) = true := by decide

theorem test_illformed_nopE_nopF : (Instr.nopE 1 0x9E).wellFormed = false ∧ (Instr.nopE 1 0xA1).wellFormed = false ∧
    ([0x07, 0x0A, 0x15, 0x18, 0x1E, 0x29, 0x33, 0x55, 0x65] : List Byte).all (fun k =>
      !(Instr.nopF 1 k).wellFormed) = true ∧ (Instr.nopF 1 0x66).wellFormed = true := by decide

/-! Decoding: a word of every constructor, written bit by bit from its row of R100 and its format of R93. -/

/-- Families 0 to 2. -/
theorem test_decode_family_0_to_2 : decodeWord 0b0000000011100000 = .cls ∧ decodeWord 0b0000000011101110 = .ret ∧
    decodeWord 0b0000000011100001 = .nop0 0x0E1 ∧ decodeWord 0b0001101010111100 = .jp 0xABC ∧
    decodeWord 0b0010001000010000 = .call 0x210 := by decide

/-- Families 3 to 7 and 9. -/
theorem test_decode_family_3_to_7_and_9 : decodeWord 0b0011001101000010 = .seImm 3 0x42 ∧
    decodeWord 0b0100001101000010 = .sneImm 3 0x42 ∧ decodeWord 0b0101000100100000 = .seReg 1 2 ∧
    decodeWord 0b0101000100100001 = .nop5 1 2 1 ∧ decodeWord 0b0110101010011100 = .ldImm 10 0x9C ∧
    decodeWord 0b0111000111111111 = .addImm 1 0xFF ∧ decodeWord 0b1001000100100000 = .sneReg 1 2 ∧
    decodeWord 0b1001000100101111 = .nop9 1 2 0xF := by decide

/-- Family 8. -/
theorem test_decode_family_8 : decodeWord 0b1000000100100000 = .ldReg 1 2 ∧ decodeWord 0b1000000100100001 = .orReg 1 2 ∧
    decodeWord 0b1000000100100010 = .andReg 1 2 ∧ decodeWord 0b1000000100100011 = .xorReg 1 2 ∧
    decodeWord 0b1000000100100100 = .addReg 1 2 ∧ decodeWord 0b1000000100100101 = .sub 1 2 ∧
    decodeWord 0b1000101010110110 = .shr 10 11 ∧ decodeWord 0b1000000100100111 = .subn 1 2 ∧
    decodeWord 0b1000000100101110 = .shl 1 2 ∧ decodeWord 0b1000000100101000 = .nop8 1 2 8 := by decide

/-- Families A to E. -/
theorem test_decode_family_A_to_E : decodeWord 0b1010001100000000 = .ldI 0x300 ∧
    decodeWord 0b1011001100000000 = .jpV0 0x300 ∧ decodeWord 0b1100011110011000 = .rnd 7 0x98 ∧
    decodeWord 0b1101000100100011 = .drw 1 2 3 ∧ decodeWord 0b1110001010011110 = .skp 2 ∧
    decodeWord 0b1110001010100001 = .sknp 2 ∧ decodeWord 0b1110000110011111 = .nopE 1 0x9F := by decide

/-- Family F. -/
theorem test_decode_family_F : decodeWord 0b1111001100000111 = .ldVxDt 3 ∧ decodeWord 0b1111010100001010 = .ldVxK 5 ∧
    decodeWord 0b1111001100010101 = .ldDt 3 ∧ decodeWord 0b1111010000011000 = .ldSt 4 ∧
    decodeWord 0b1111001000011110 = .addI 2 ∧ decodeWord 0b1111000000101001 = .ldF 0 ∧
    decodeWord 0b1111101000110011 = .ldB 10 ∧ decodeWord 0b1111000101010101 = .ldMemVx 1 ∧
    decodeWord 0b1111001001100101 = .ldVxMem 2 ∧ decodeWord 0b1111111111111111 = .nopF 15 0xFF := by decide

/-- A1 and A2: the fields of D123 and C798. -/
theorem test_fields : fieldFamily 0xD123 = 0xD ∧ fieldX 0xD123 = 1 ∧ fieldY 0xD123 = 2 ∧ fieldN 0xD123 = 3 ∧
    fieldKk 0xD123 = 0x23 ∧ fieldNnn 0xD123 = 0x123 ∧ fieldX 0xC798 = 7 ∧ fieldKk 0xC798 = 0x98 := by decide

/-- R66, R90: two bytes, the first in bits 15 to 8; one byte is no instruction. -/
theorem test_decode_bytes : decode [0xD1, 0x23, 0x7] = .ok (.drw 1 2 3, [0x7]) ∧ decode [0xD1] = .error .truncated ∧
    encode (.drw 1 2 3) = [0xD1, 0x23] ∧ decodeTableWord 16 0xD123 = some (.drw 1 2 3) := by decide

/-- Lines of the listings P1 to P4 of 95_test_vectors.md, each with the hex word beside it. -/
theorem test_line : (decodeWord 0xD125).line.text = "DRW V1, V2, 5" ∧ (decodeWord 0x2210).line.text = "CALL 0x210" ∧
    (decodeWord 0x71FF).line.text = "ADD V1, 0xFF" ∧ (decodeWord 0xF265).line.text = "LD V2, [I]" ∧
    (decodeWord 0xFA33).line.text = "LD B, VA" ∧ (decodeWord 0x0000).line.text = ".word 0x0000" ∧
    (decodeWord 0x8446).line.text = "SHR V4, V4" ∧ (decodeWord 0x00EE).line.text = "RET" := by decide

/-- R105: one register only gives y = 0; an operand list of no row assembles to nothing. -/
theorem test_assemble : (AsmLine.op .shr [.reg 4]).assemble = some 0x8406#16 ∧
    (AsmLine.op .jp [.reg 0, .addr 0x300]).assemble = some 0xB300#16 ∧
    (AsmLine.op .jp [.reg 1, .addr 0x300]).assemble = none ∧ (AsmLine.word 0x5121).assemble = some 0x5121#16 := by decide

/-! The cycle (B2). -/

/-- B2.1. -/
theorem test_fetch_big_endian :
    (nx (step (s0.setMem (memAt 0x200 [0x12, 0x34])))).map (·.pc) = some 0x234#16 := by decide

/-- B2.3, B2.4: an odd PC and the last PC that can be fetched at. -/
theorem test_nop_advances : (run 0x5121 (s0.setPc 0x201#16)).map (·.pc) = some 0x203#16 ∧
    (run 0x0000 (s0.setPc 0xFFE#16)).map (·.pc) = some 0x1000#16 := by decide

/-- B2.5, B2.6: nothing is fetched at 4095 and above. -/
theorem test_pc_out_of_range :
    (nx (step (s0.setPc 0xFFF#16))).map (·.stop) = some (some ⟨.pcOutOfRange, 0xFFF#16, none⟩) ∧
    (nx (step (s0.setPc 0x1000#16))).map (·.stop) = some (some ⟨.pcOutOfRange, 0x1000#16, none⟩) := by decide

/-- B2.7, B2.8 and B8.6: the loop has no step. -/
theorem test_loop_has_no_step : step (s0.setWait (some 3)) = .fault .loopWaiting ∧
    step State.reset = .fault .loopNotStarted ∧ step (s0.setLife .stopped) = .fault .loopStopped := ⟨rfl, rfl, rfl⟩

/-- B2.2, B3.19, B4.33, B1.7, B1.8 and R102: each no-op row leaves the state as it was, PC + 2 aside. -/
theorem test_nops : ([0x0000, 0x5121, 0x8128, 0x9121, 0xE19F, 0xFFFF] : List Nat).all (fun w =>
    run w s0 = some ((s0.withFetchWord 16 w).setPc 0x202#16)) = true := by decide

/-! Control transfer (B3). -/

/-- B3.1 and B3.3. -/
theorem test_jp : (run 0x1ABC s0).map (·.pc) = some 0xABC#16 ∧ (run 0x1FFF s0).map (·.pc) = some 0xFFF#16 := by
  decide

/-- B3.4 and B3.6. -/
theorem test_call : (run 0x2210 (s0.setPc 0x204#16)).map (fun t => (t.stack[0], t.sp, t.pc)) =
      some (0x206#16, 1#8, 0x210#16) ∧
    (run 0x2300 (s0.setPc 0xFFE#16)).map (fun t => (t.stack[0], t.pc)) = some (0x1000#16, 0x300#16) := by decide

/-- B3.5. -/
theorem test_call_overflow : (run 0x2400 ((s0.setPc 0x300#16).setSp 16#8)).map (fun t => (t.life, t.stop, t.pc, t.sp)) =
    some (.stopped, some ⟨.stackOverflow, 0x300#16, some 0x2400#16⟩, 0x302#16, 16#8) := by decide

/-- B3.7. -/
theorem test_ret : (run 0x00EE ((s0.setSlot 0 0x206#16).setSp 1#8)).map (fun t => (t.sp, t.pc)) =
    some (0#8, 0x206#16) := by decide

/-- B3.8. -/
theorem test_ret_underflow : (run 0x00EE s0).map (fun t => (t.life, t.stop, t.pc)) =
    some (.stopped, some ⟨.stackUnderflow, 0x200#16, some 0x00EE#16⟩, 0x202#16) := by decide

/-- B3.10 and B3.11: the sum is not reduced to 12 bits. -/
theorem test_jpV0 : (run 0xB300 (s0.writeV 0 0x10)).map (·.pc) = some 0x310#16 ∧
    (run 0xBFFF (s0.writeV 0 0xFF)).map (·.pc) = some 0x10FE#16 := by decide

/-- B3.12 and B3.13. -/
theorem test_seImm : (run 0x3342 (s0.writeV 3 0x42)).map (·.pc) = some 0x204#16 ∧
    (run 0x3342 (s0.writeV 3 0x41)).map (·.pc) = some 0x202#16 := by decide

/-- B3.14 and its converse (R155). -/
theorem test_sneImm : (run 0x4342 (s0.writeV 3 0x41)).map (·.pc) = some 0x204#16 ∧
    (run 0x4342 (s0.writeV 3 0x42)).map (·.pc) = some 0x202#16 := by decide

/-- B3.15, B3.16 and R156. -/
theorem test_seReg : (run 0x5120 ((s0.writeV 1 7).writeV 2 7)).map (·.pc) = some 0x204#16 ∧
    (run 0x5110 s0).map (·.pc) = some 0x204#16 ∧
    (run 0x5120 ((s0.writeV 1 7).writeV 2 8)).map (·.pc) = some 0x202#16 := by decide

/-- B3.17 and B3.18. -/
theorem test_sneReg : (run 0x9120 ((s0.writeV 1 7).writeV 2 8)).map (·.pc) = some 0x204#16 ∧
    (run 0x9110 s0).map (·.pc) = some 0x202#16 := by decide

/-! Registers and arithmetic (B4). -/

/-- B4.1 and B4.2. -/
theorem test_ldImm : (run 0x6A9C s0).map (State.readV · 10) = some 0x9C#8 ∧
    (run 0x6F05 s0).map (State.readV · 15) = some 5#8 := by decide

/-- B4.3 and B4.4: no carry flag. -/
theorem test_addImm : (run 0x7101 ((s0.writeV 1 0xFF).writeV 15 0x33)).map (fun t => (t.readV 1, t.readV 15)) =
      some (0#8, 0x33#8) ∧
    (run 0x71FF (s0.writeV 1 0xFF)).map (State.readV · 1) = some 0xFE#8 := by decide

/-- B4.5. -/
theorem test_ldReg : (run 0x8120 (s0.writeV 2 0x37)).map (State.readV · 1) = some 0x37#8 := by decide

/-- B4.6: VF as it was. -/
theorem test_orReg : (run 0x8121 (((s0.writeV 1 0xF0).writeV 2 0x0F).writeV 15 1)).map
    (fun t => (t.readV 1, t.readV 15)) = some (0xFF#8, 1#8) := by decide

/-- B4.7. -/
theorem test_andReg : (run 0x8122 ((s0.writeV 1 0xF0).writeV 2 0x3C)).map (State.readV · 1) = some 0x30#8 := by decide

/-- B4.8 and B4.9. -/
theorem test_xorReg : (run 0x8123 ((s0.writeV 1 0xF0).writeV 2 0x3C)).map (State.readV · 1) = some 0xCC#8 ∧
    (run 0x8113 (s0.writeV 1 0x5A)).map (State.readV · 1) = some 0#8 := by decide

/-- B4.10 to B4.12. -/
theorem test_addReg : ([(0xC8, 0x64, 0x2C, 1), (0x80, 0x7F, 0xFF, 0), (0x80, 0x80, 0, 1)] : List (Byte × Byte × Byte × Byte)).all
    (fun q => (run 0x8124 ((s0.writeV 1 q.1).writeV 2 q.2.1)).map (fun t => (t.readV 1, t.readV 15)) =
      some (q.2.2.1, q.2.2.2)) = true := by decide

/-- B4.13 and B4.14: VF as destination and as addend. -/
theorem test_addReg_vF : (run 0x8F14 ((s0.writeV 15 0x80).writeV 1 0x80)).map (State.readV · 15) = some 0#8 ∧
    (run 0x81F4 ((s0.writeV 15 1).writeV 1 0xFF)).map (fun t => (t.readV 1, t.readV 15)) = some (0#8, 1#8) := by decide

/-- B4.15 to B4.17: the flag is a strict comparison. -/
theorem test_sub : ([(0x0A, 0x03, 0x07, 1), (5, 5, 0, 0), (0, 1, 0xFF, 0)] : List (Byte × Byte × Byte × Byte)).all
    (fun q => (run 0x8125 ((s0.writeV 1 q.1).writeV 2 q.2.1)).map (fun t => (t.readV 1, t.readV 15)) =
      some (q.2.2.1, q.2.2.2)) = true := by decide

/-- B4.18. -/
theorem test_sub_vF : (run 0x8F25 ((s0.writeV 15 0x0A).writeV 2 3)).map (State.readV · 15) = some 7#8 := by decide

/-- B4.19 to B4.21: Vy is not read. -/
theorem test_shr : (run 0x8106 (s0.writeV 1 5)).map (fun t => (t.readV 1, t.readV 15)) = some (2#8, 1#8) ∧
    (run 0x8126 ((s0.writeV 1 4).writeV 2 3)).map (fun t => (t.readV 1, t.readV 15)) = some (2#8, 0#8) ∧
    (run 0x8106 (s0.writeV 1 0xFF)).map (fun t => (t.readV 1, t.readV 15)) = some (0x7F#8, 1#8) := by decide

/-- B4.22 and B4.29: VF as destination of a shift. -/
theorem test_shift_vF : (run 0x8F06 (s0.writeV 15 5)).map (State.readV · 15) = some 2#8 ∧
    (run 0x8F0E (s0.writeV 15 0xC0)).map (State.readV · 15) = some 0x80#8 := by decide

/-- B4.23 to B4.25. -/
theorem test_subn : ([(0x03, 0x0A, 0x07, 1), (0x0A, 0x03, 0xF9, 0), (9, 9, 0, 0)] : List (Byte × Byte × Byte × Byte)).all
    (fun q => (run 0x8127 ((s0.writeV 1 q.1).writeV 2 q.2.1)).map (fun t => (t.readV 1, t.readV 15)) =
      some (q.2.2.1, q.2.2.2)) = true := by decide

/-- B4.26 to B4.28: Vy is not read. -/
theorem test_shl : (run 0x810E (s0.writeV 1 0x81)).map (fun t => (t.readV 1, t.readV 15)) = some (2#8, 1#8) ∧
    (run 0x810E (s0.writeV 1 0x7F)).map (fun t => (t.readV 1, t.readV 15)) = some (0xFE#8, 0#8) ∧
    (run 0x812E ((s0.writeV 1 1).writeV 2 0x80)).map (fun t => (t.readV 1, t.readV 15)) = some (2#8, 0#8) := by decide

/-- B4.31: a mask of 0 leaves nothing of the byte drawn; the byte counts as drawn (R192). -/
theorem test_rnd : ∃ t, exec (.rnd 5 0x00) s0 = .next t ∧ t.readV 5 = 0#8 ∧ t.draws = 1 :=
  ⟨_, rfl, by simp [State.readV, State.writeV, State.countDraw], rfl⟩

/-! Address register and memory (B5). -/

/-- B5.1. -/
theorem test_ldI : (run 0xA300 s0).map (·.i) = some 0x300#16 := by decide

/-- B5.2 to B5.4: no flag, modulo 65536. -/
theorem test_addI : (run 0xF21E ((s0.setI 0x300#16).writeV 2 0x10)).map (·.i) = some 0x310#16 ∧
    (run 0xF11E ((s0.setI 0xFFF#16).writeV 1 1)).map (fun t => (t.i, t.readV 15)) = some (0x1000#16, 0#8) ∧
    (run 0xF11E ((s0.setI 0xFFFF#16).writeV 1 2)).map (·.i) = some 1#16 := by decide

/-- B5.5, B5.7 and B5.8. -/
theorem test_ldF : (run 0xF029 (s0.writeV 0 0x0A)).map (·.i) = some 0x32#16 ∧
    (run 0xF029 (s0.writeV 0 0x10)).map (·.i) = some 0x50#16 ∧
    (run 0xF029 (s0.writeV 0 0xFF)).map (·.i) = some 0x4FB#16 := by decide

/-- B5.9, B5.11, B5.13 and B5.22. -/
theorem test_ldB : (run 0xFA33 ((s0.setI 0x300#16).writeV 10 0x9C)).map
      (fun t => (Memory.readBytes t.mem 0x300 3, t.i)) = some ([1, 5, 6], 0x300#16) ∧
    (run 0xFA33 ((s0.setI 0x300#16).writeV 10 0xFF)).map (fun t => Memory.readBytes t.mem 0x300 3) = some [2, 5, 5] ∧
    (run 0xFA33 ((s0.setI 0xFFD#16).writeV 10 7)).map (fun t => Memory.readBytes t.mem 0xFFD 3) = some [0, 0, 7] ∧
    (run 0xFA33 ((s0.setI 0x10#16).writeV 10 0x9C)).map (fun t => Memory.readBytes t.mem 0x10 3) = some [1, 5, 6] := by
  decide

/-- B5.14. -/
theorem test_ldB_fault : (run 0xF233 ((s0.setI 0xFFE#16).setPc 0x204#16)).map
    (fun t => (t.stop, t.pc, t.i, Memory.readBytes t.mem 0xFFE 2)) =
      some (some ⟨.memoryFault, 0x204#16, some 0xF233#16⟩, 0x206#16, 0xFFE#16, [0, 0]) := by decide

/-- B5.15 and B5.16. -/
theorem test_ldMemVx : (run 0xF155 (((s0.setI 0x400#16).writeV 0 0x11).writeV 1 0x22)).map
      (fun t => (Memory.readBytes t.mem 0x400 2, t.i)) = some ([0x11, 0x22], 0x402#16) ∧
    (run 0xF055 (((s0.setI 0x400#16).writeV 0 0x11).writeV 1 0x22)).map
      (fun t => (Memory.readBytes t.mem 0x400 2, t.i)) = some ([0x11, 0], 0x401#16) := by decide

/-- B5.17 and B5.18: the last address range that fits, and the first that does not. -/
theorem test_ldMemVx_edge : (run 0xFF55 ((s0.setI 0xFF0#16).writeV 15 0x0F)).map
      (fun t => (Memory.read t.mem 0xFFF, t.i)) = some (0x0F#8, 0x1000#16) ∧
    (run 0xFF55 ((s0.setI 0xFF1#16).writeV 15 0x0F)).map (fun t => (t.stop, t.i)) =
      some (some ⟨.memoryFault, 0x200#16, some 0xFF55#16⟩, 0xFF1#16) := by decide

/-- B5.19. -/
theorem test_ldVxMem : (run 0xF265 ((s0.setMem (memAt 0x300 [1, 5, 6])).setI 0x300#16)).map
    (fun t => (t.readV 0, t.readV 1, t.readV 2, t.i)) = some (1#8, 5#8, 6#8, 0x303#16) := by decide

/-- B5.20 and B5.21. -/
theorem test_ldVxMem_edge : (run 0xF065 s0).map (fun t => (t.readV 0, t.i)) = some (0xF0#8, 1#16) ∧
    (run 0xF065 (s0.setI 0x1000#16)).map (fun t => (t.readV 0, t.stop)) =
      some (0#8, some ⟨.memoryFault, 0x200#16, some 0xF065#16⟩) := by decide

/-! Display (B6). -/

/-- B6.1. -/
theorem test_cls : (run 0x00E0 ((s0.setFb (setPixel s0.fb 63 31 true)).writeV 15 5)).map
    (fun t => (t.fb, t.readV 15, t.events)) = some (s0.fb, 5#8, [.display s0.fb]) := by decide

/-- B6.3: the 14 pixels of glyph 0 (A13). -/
theorem test_drw_glyph : (run 0xD125 s0).map (fun t => (lit t.fb, t.readV 15, t.events == [.display t.fb])) =
    some ([(0, 0), (0, 1), (0, 2), (0, 3), (0, 4), (1, 0), (1, 4), (2, 0), (2, 4),
      (3, 0), (3, 1), (3, 2), (3, 3), (3, 4)], 0#8, true) := by decide

/-- B6.9 and B6.10: sprite rows at the top of memory, and a collision. -/
theorem test_drw_collision : (run 0xD122 ((s0.setMem (memAt 0xFFE [0x80, 0x80])).setI 0xFFE#16)).map
      (fun t => (lit t.fb, t.readV 15)) = some ([(0, 0), (0, 1)], 0#8) ∧
    (run 0xD121 (((s0.setMem (memAt 0x300 [0xC0])).setI 0x300#16).setFb (setPixel s0.fb 1 0 true))).map
      (fun t => (lit t.fb, t.readV 15)) = some ([(0, 0)], 1#8) := by decide

/-! Timers, keys and the key-wait (B7). -/

/-- B7.1. -/
theorem test_ldVxDt : (run 0xF307 (s0.setDt 0x3C)).map (State.readV · 3) = some 0x3C#8 := by decide

/-- B7.2. -/
theorem test_ldDt : (run 0xF315 (s0.writeV 3 0x3C)).map (·.dt) = some 0x3C#8 := by decide

/-- B7.3 to B7.6. -/
theorem test_ldSt : (run 0xF418 (s0.writeV 4 8)).map (fun t => (t.st, t.events)) = some (8#8, [.toneStart]) ∧
    (run 0xF418 ((s0.setSt 5).writeV 4 3)).map (fun t => (t.st, t.events)) = some (3#8, []) ∧
    (run 0xF418 (s0.setSt 5)).map (fun t => (t.st, t.events)) = some (0#8, [.toneStop]) ∧
    (run 0xF418 s0).map (fun t => (t.st, t.events)) = some (0#8, []) := by decide

/-- B7.7, B7.8 and B7.11. -/
theorem test_tick : (nx (step (((s0.setDt 1).setSt 1).setSchedule [.tick]))).map (fun t => (t.dt, t.st, t.events)) =
      some (0#8, 0#8, [.toneStop]) ∧
    (nx (step ((s0.setDt 0xFF).setSchedule [.tick]))).map (fun t => (t.dt, t.st, t.events)) = some (0xFE#8, 0#8, []) ∧
    step (State.reset.setSchedule [.tick]) = .refused .tickOutsideRunning := ⟨by decide, by decide, rfl⟩

/-- B7.12, B7.13 and B7.15. -/
theorem test_skp : (run 0xE29E ((s0.setKey 5 true).writeV 2 5)).map (·.pc) = some 0x204#16 ∧
    (run 0xE29E (s0.writeV 2 5)).map (·.pc) = some 0x202#16 ∧
    (run 0xE29E ((s0.setKey 0 true).writeV 2 0x10)).map (·.pc) = some 0x202#16 := by decide

/-- B7.14, B7.16 and R271. -/
theorem test_sknp : (run 0xE2A1 (s0.writeV 2 5)).map (·.pc) = some 0x204#16 ∧
    (run 0xE2A1 ((s0.setKey 0 true).writeV 2 0x10)).map (·.pc) = some 0x204#16 ∧
    (run 0xE2A1 ((s0.setKey 5 true).writeV 2 5)).map (·.pc) = some 0x202#16 := by decide

/-- B7.17 and B7.19: a key that is already down does not end the wait. -/
theorem test_ldVxK : (run 0xF50A (s0.setKey 3 true)).map (fun t => (t.wait, t.pc)) = some (some 5, 0x202#16) := by decide

/-- B7.18 and B7.23. -/
theorem test_keyPress : (nx (step ((s0.setWait (some 5)).setSchedule [.host (.keyPress 0xB)]))).map
      (fun t => (t.readV 5, t.wait, t.keys[11], t.lastKey)) = some (0xB#8, none, true, some 11) ∧
    (nx (step (State.reset.setSchedule [.host (.keyPress 3)]))).map (fun t => (t.keys[3], t.lastKey, t.life)) =
      some (true, some 3, .ready) := by decide

/-- B7.21 and B7.25. -/
theorem test_keyRelease : (nx (step (((s0.setWait (some 5)).setKey 3 true).setSchedule [.host (.keyRelease 3)]))).map
      (fun t => (t.keys[3], t.wait)) = some (false, some 5) ∧
    step (s0.setSchedule [.host (.keyPress 16)]) = .refused .keyCodeOutOfRange := ⟨by decide, rfl⟩

/-- B7.26 and B8.4. -/
theorem test_stop : (nx (step ((((s0.setWait (some 5)).setPc 0x202#16).setSt 3).setSchedule [.host .stop]))).map
    (fun t => ((t.life, t.wait, t.stop), (t.readV 5, t.st, t.events))) =
      some ((.stopped, none, some ⟨.stopRequested, 0x202#16, none⟩), (0#8, 3#8, [])) := by decide

/-- B8.1 to B8.3. -/
theorem test_start : step (State.reset.setSchedule [.host .start]) = .next s0 ∧
    step (s0.setSchedule [.host .start]) = .next s0 ∧
    step (State.reset.setSchedule [.host .stop]) = .next State.reset := ⟨rfl, rfl, rfl⟩

/-- B9.3. -/
theorem test_construct : construct [0x12, 0x00] = .loaded (State.reset.setMem [(0x200, 0x12)]) := by decide

/-! Witnesses: the hypotheses of the obligations, met together. -/

/-- S0 with one word of program, no turn scheduled. -/
def s1 (w : Nat) : State := s0.withFetchWord 16 w

theorem inv_s0 : s0.Inv where
  memory := by decide
  sp := by decide
  pc := by decide
  returns := by decide
  stop := by decide
  wait := by decide

theorem inv_s0_waiting : (s0.setWait (some 5)).Inv where
  memory := by decide
  sp := by decide
  pc := by decide
  returns := by decide
  stop := by decide
  wait := by decide

/-- The word fails every row of the table. -/
theorem unlisted_of_all (w : Word) (h : (listedRowsLow ++ listedRowsHigh).all (fun row => w &&& row.1 != row.2) = true) :
    Unlisted w := fun row m => by simpa using List.all_eq_true.mp h row m

/-- The hypothesis of every RowDecodes: each row has a word. -/
theorem witness_RowDecodes : ∀ row ∈ listedRowsLow ++ listedRowsHigh, row.2 &&& row.1 = row.2 :=
  fun row h => by simpa using List.all_eq_true.mp (show (listedRowsLow ++ listedRowsHigh).all
    (fun row => row.2 &&& row.1 == row.2) = true from rfl) row h

theorem witness_DecodeOfEncodeIsTheInstruction : (Instr.drw 15 0 0xF).wellFormed = true ∧
    (Instr.nop8 15 0 0xF).wellFormed = true := by decide

theorem witness_UnlistedWordsOnlyAdvancePc : (s1 0x5121).LoopReady ∧ (s1 0x5121).LoopNext [] ∧
    (s1 0x5121).pc.toNat < 4095 ∧ Unlisted (Memory.readWord (s1 0x5121).mem (s1 0x5121).pc.toNat) :=
  ⟨by decide, by decide, by decide, unlisted_of_all _ rfl⟩

theorem witness_UnlistedWordsOnlyAdvancePc_last : (s0.setPc 4094#16).LoopReady ∧ (s0.setPc 4094#16).LoopNext [] ∧
    (s0.setPc 4094#16).pc.toNat < 4095 ∧
    Unlisted (Memory.readWord (s0.setPc 4094#16).mem (s0.setPc 4094#16).pc.toNat) :=
  ⟨by decide, by decide, by decide, unlisted_of_all _ rfl⟩

theorem witness_StepRunsTheDecodedInstruction : ((s1 0x2210).setSchedule [.loop, .tick]).LoopReady ∧
    ((s1 0x2210).setSchedule [.loop, .tick]).LoopNext [.tick] ∧ (s1 0x2210).pc.toNat < 4095 ∧
    (Instr.call 0x210).wellFormed = true ∧
    decode [Memory.read (s1 0x2210).mem (s1 0x2210).pc.toNat, Memory.read (s1 0x2210).mem ((s1 0x2210).pc.toNat + 1)] =
      .ok (.call 0x210, []) := ⟨by decide, by decide, by decide, by decide, rfl⟩

theorem witness_PcOutOfRangeHalts : (s0.setPc 4095#16).LoopReady ∧ (s0.setPc 4095#16).LoopNext [] ∧
    4095 ≤ (s0.setPc 4095#16).pc.toNat := ⟨by decide, by decide, by decide⟩

theorem witness_LoopStepsExactlyWhenReady : s0.Inv ∧ s0.LoopNext [] ∧ s0.LoopReady ∧
    (s0.setWait (some 5)).Inv ∧ (s0.setWait (some 5)).LoopNext [] ∧ ¬ (s0.setWait (some 5)).LoopReady :=
  ⟨inv_s0, by decide, by decide, inv_s0_waiting, by decide, by decide⟩

theorem witness_CallPushesPcAndJumps : (s0.setSp 15#8).sp.toNat < 16 ∧ (s0.setSp 16#8).sp.toNat = 16 := by decide

theorem witness_ReturnPopsIntoPc : (s0.setSp 1#8).sp.toNat = (0 : Fin 16).val + 1 ∧
    (s0.setSp 16#8).sp.toNat = (15 : Fin 16).val + 1 ∧ s0.sp.toNat = 0 := by decide

theorem witness_SpAboveSixteenStopsByName : 16 < (s0.setSp 17#8).sp.toNat := by decide

theorem witness_ReturnUndoesCall : (s0.setSp 15#8).sp.toNat < 16 ∧ (3 : Fin 16).val ≠ (s0.setSp 15#8).sp.toNat := by
  decide

theorem witness_ImmediateSkips : (s0.readV 3).toNat = (0 : Byte).toNat ∧ (s0.readV 3).toNat ≠ (0xFF : Byte).toNat := by
  decide

theorem witness_RegisterSkips : (s0.readV 3).toNat = (s0.readV 4).toNat ∧
    ((s0.writeV 3 1).readV 3).toNat ≠ ((s0.writeV 3 1).readV 4).toNat := by decide

/-- Clause 1: key 15 down; clause 2: a value of 16 with every one of the keys tried down, and a key up. -/
theorem witness_KeySkips :
    (∃ k : Key, (((s0.setKey 15 true).writeV 2 15).readV 2).toNat = k.val ∧ (s0.setKey 15 true).keys[k.val] = true) ∧
    (∀ k : Key, (((s0.setKey 0 true).writeV 2 16).readV 2).toNat = k.val → (s0.setKey 0 true).keys[k.val] = false) ∧
    (∀ k : Key, ((s0.writeV 2 15).readV 2).toNat = k.val → s0.keys[k.val] = false) := by decide

/-- The VF clauses of the flag statements: a carry, no carry, a strict difference, none, and `x` = 15. -/
theorem witness_FlagClauses : 255 < (0x80 : Byte).toNat + (0x80 : Byte).toNat ∧ ¬ 255 < (0x80 : Byte).toNat + (0x7F : Byte).toNat ∧
    (3 : Byte).toNat < (0xA : Byte).toNat ∧ ¬ (5 : Byte).toNat < (5 : Byte).toNat ∧ (15 : Reg) ≠ 1 := by decide

theorem witness_RandomIsOneMaskedDraw : (15 : Reg) ≠ 3 ∧ (7 : Nat) < 8 := by decide

theorem witness_BcdStoresThreeDigits : Memory.wf (s0.setI 0xFFD#16).mem ∧ (s0.setI 0xFFD#16).i.toNat + 2 < 4096 ∧
    0xFFC < (s0.setI 0xFFD#16).i.toNat ∧ (s0.setI 0xFFD#16).i.toNat + 2 < 4096 := by decide

theorem witness_StoreRegistersAdvancesI : Memory.wf (s0.setI 0xFF0#16).mem ∧
    (s0.setI 0xFF0#16).i.toNat + (15 : Reg).val < 4096 ∧ (15 : Reg).val ≤ (15 : Reg).val ∧
    0xFEF < (s0.setI 0xFF0#16).i.toNat ∧ (s0.setI 0xFF0#16).i.toNat + (14 : Reg).val < 0xFFF := by decide

theorem witness_LoadRegistersAdvancesI : (s0.setI 0xFF0#16).i.toNat + (15 : Reg).val < 4096 ∧
    (3 : Reg).val ≤ (3 : Reg).val ∧ ¬ (4 : Reg).val ≤ (3 : Reg).val := by decide

theorem witness_OutOfRangeAccessFaults : 4096 ≤ (s0.setI 0xFFE#16).i.toNat + 2 ∧
    4096 ≤ (s0.setI 0xFF1#16).i.toNat + (15 : Reg).val ∧ 0 < (3 : Nibble).toNat ∧
    4096 ≤ (s0.setI 0xFFE#16).i.toNat + (3 : Nibble).toNat - 1 := by decide

/-- The store covers the next instruction whole (I = PC), its second byte alone (I = PC + 1), or its first alone (the last
of three digits, I + 2 = PC). -/
theorem witness_StoredBytesAreFetchedNext : (s0.setI 0x200#16).LoopReady ∧ (s0.setI 0x200#16).schedule = [] ∧
    Memory.wf (s0.setI 0x200#16).mem ∧ (s0.setI 0x200#16).pc.toNat < 4095 ∧
    (s0.setI 0x200#16).i.toNat + (1 : Reg).val < 4096 ∧ (s0.setI 0x201#16).i.toNat + 2 < 4096 ∧
    (s0.setI 0x1FE#16).i.toNat + 2 = (s0.setI 0x1FE#16).pc.toNat := by decide

/-- The last address that can be fetched at and stored to. -/
theorem witness_StoredBytesAreFetchedNext_last : ((s0.setI 0xFFE#16).setPc 0xFFE#16).pc.toNat < 4095 ∧
    ((s0.setI 0xFFE#16).setPc 0xFFE#16).i.toNat + (1 : Reg).val < 4096 ∧
    ((s0.setI 0xFFD#16).setPc 0xFFE#16).i.toNat + 2 < 4096 := by decide

/-- B5.23 (12 00 stored at 0x202) and the digits of B5.9 (1, 5, 6). -/
theorem test_byteAfter : (((s0.setI 0x202#16).writeV 0 0x12).writeV 1 0).byteAfterStore 1 0x202 = 0x12#8 ∧
    (((s0.setI 0x202#16).writeV 0 0x12).writeV 1 0).byteAfterStore 1 0x204 = 0#8 ∧
    ((s0.setI 0x202#16).writeV 1 0x9C).byteAfterDigits 1 0x203 = 5#8 ∧
    ((s0.setI 0x202#16).writeV 1 0x9C).byteAfterDigits 1 0x204 = 6#8 := by decide

/-- In range at both ends; glyph 0 at (0, 0) has a bit at (0, 0) and none at (4, 0); a pixel on and every pixel off. -/
theorem witness_DrawInvertsTheSpritePixels : ((0 : Nibble).toNat = 0 ∨ (s0.setI 0xFFFF#16).i.toNat + (0 : Nibble).toNat - 1 < 4096) ∧
    ((15 : Nibble).toNat = 0 ∨ (s0.setI 0xFF1#16).i.toNat + (15 : Nibble).toNat - 1 < 4096) ∧
    SpriteBit s0 1 2 5 0 0 ∧ ¬ SpriteBit s0 1 2 5 4 0 ∧ pixel (setPixel s0.fb 0 0 true) 0 0 = true ∧
    (∀ c r, pixel s0.fb c r = false) := by decide

theorem witness_DrawInvertsTheSpritePixels_wraps : SpriteBit ((s0.writeV 1 62).writeV 2 30) 1 2 5 0 2 := by decide

theorem witness_DrawingTwiceRestoresTheGrid : (1 : Reg) ≠ 15 ∧ (2 : Reg) ≠ 15 ∧
    ((5 : Nibble).toNat = 0 ∨ s0.i.toNat + (5 : Nibble).toNat - 1 < 4096) := by decide

theorem witness_SoundTimerWriteEmitsTheEdge : (s0.st.toNat = 0 ∧ ((s0.writeV 4 8).readV 4).toNat ≠ 0) ∧
    ((s0.setSt 5).st.toNat ≠ 0 ∧ ((s0.setSt 5).readV 4).toNat = 0) ∧ (s0.st.toNat = 0 ↔ (s0.readV 4).toNat = 0) ∧
    ((s0.setSt 5).st.toNat = 0 ↔ ((s0.writeV 4 3).readV 4).toNat = 0) := by decide

theorem witness_KeyWaitSuspendsTheLoop : s0.life = .running ∧ s0.schedule = [] := by decide

theorem witness_KeyPressIsRecordedAndEndsTheWait :
    ((s0.setWait (some 5)).setSchedule [.host (.keyPress (15 : Key).val)]).schedule = .host (.keyPress (15 : Key).val) :: [] ∧
    s0.life = .running ∧ (s0.setWait (some 5)).wait = some 5 ∧ s0.wait = none ∧ State.reset.life ≠ .running := by decide

theorem witness_KeyReleaseOnlyClearsTheKey :
    (s0.setSchedule [.host (.keyRelease (0 : Key).val), .tick]).schedule = .host (.keyRelease (0 : Key).val) :: [.tick] := by
  decide

theorem witness_KeyCodesAboveFifteenAreRefused : 16 ≤ 16 ∧
    (s0.setSchedule [.host (.keyPress 16)]).schedule = .host (.keyPress 16) :: [] ∧
    (s0.setSchedule [.host (.keyRelease 16)]).schedule = .host (.keyRelease 16) :: [] := by decide

theorem witness_TickLowersBothTimers : (s0.setSchedule [.tick]).schedule = .tick :: [] ∧ s0.life = .running ∧
    State.reset.life ≠ .running ∧ (s0.setSt 1).st.toNat = 1 := by decide

theorem witness_LifecycleTable : (State.reset.setSchedule [.host .start]).schedule = .host .start :: [] ∧
    (s0.setSchedule [.host .stop]).schedule = .host .stop :: [] ∧ s0.life = .running ∧ State.reset.life ≠ .running := by
  decide

/-- A key press in Stopped is a step. -/
theorem witness_StoppedIsFinal : ((s0.setLife .stopped).setSchedule [.host (.keyPress 3)]).life = .stopped ∧
    ∃ t, step ((s0.setLife .stopped).setSchedule [.host (.keyPress 3)]) = .next t := ⟨rfl, _, rfl⟩

/-- A return on an empty stack is such a step. -/
theorem witness_FaultsArePrecise : (s1 0x00EE).LoopReady ∧ (s1 0x00EE).LoopNext [] ∧ (s1 0x00EE).pc.toNat < 4095 ∧
    ∃ t, step (s1 0x00EE) = .next t ∧ t.life ≠ .running := ⟨by decide, by decide, by decide, _, rfl, by decide⟩

/-- A3, A4 and B9.1: the longest program, one byte more, and the empty one. -/
theorem witness_LoadCopiesTheProgram : (List.replicate 3584 (0x12 : Byte)).length ≤ 3584 ∧
    3584 < (List.replicate 3585 (0x12 : Byte)).length ∧ ([] : List Byte).length ≤ 3584 :=
  ⟨List.length_replicate.le, List.length_replicate.ge, Nat.zero_le _⟩

theorem witness_EveryStepKeepsTheInvariant : s0.Inv ∧ ∃ t, step s0 = .next t := ⟨inv_s0, _, rfl⟩

/-- A tick that ends the tone is such a step. -/
theorem witness_ToneEventsAlternate : (((s0.setSt 1).emit .toneStart).setSchedule [.tick]).ToneInv ∧
    ∃ t, step (((s0.setSt 1).emit .toneStart).setSchedule [.tick]) = .next t := ⟨by decide, _, rfl⟩

/-- Each field of EveryFieldHasItsWriters does change by one of its writers. -/
theorem witness_EveryFieldHasItsWriters :
    (∃ t, exec .ret s0 = .next t ∧ t.life ≠ s0.life ∧ t.stop ≠ s0.stop) ∧
    (∃ t, exec (.ldImm 1 5) s0 = .next t ∧ t.v ≠ s0.v) ∧
    (∃ t, exec (.ldB 1) s0 = .next t ∧ t.mem ≠ s0.mem) ∧ (∃ t, exec (.ldI 0x300) s0 = .next t ∧ t.i ≠ s0.i) ∧
    (∃ t, exec (.call 0x300) s0 = .next t ∧ t.stack ≠ s0.stack ∧ t.sp ≠ s0.sp ∧ t.pc ≠ s0.pc) ∧
    (∃ t, exec (.ldDt 1) (s0.setDt 5) = .next t ∧ t.dt ≠ (s0.setDt 5).dt) ∧
    (∃ t, exec (.ldSt 1) (s0.setSt 5) = .next t ∧ t.st ≠ (s0.setSt 5).st) ∧
    (∃ t, exec (.drw 1 2 1) s0 = .next t ∧ t.fb ≠ s0.fb ∧ t.events ≠ s0.events) ∧
    (∃ t, exec (.ldVxK 1) s0 = .next t ∧ t.wait ≠ s0.wait) ∧
    (∃ t, exec (.rnd 1 0) s0 = .next t ∧ t.draws ≠ s0.draws) :=
  ⟨⟨_, rfl, by decide⟩, ⟨_, rfl, by decide⟩, ⟨_, rfl, by decide⟩, ⟨_, rfl, by decide⟩, ⟨_, rfl, by decide⟩, ⟨_, rfl, by decide⟩, ⟨_, rfl, by decide⟩,
    ⟨_, rfl, by decide⟩, ⟨_, rfl, by decide⟩, ⟨_, rfl, by decide⟩⟩

theorem witness_RegistersChangeOnlyAsListed : (∃ t, exec (.addReg 1 2) s0 = .next t) ∧
    writesV (.addReg 1 2) 14 = false ∧ writesV (.ldVxMem 3) 4 = false := ⟨⟨_, rfl⟩, by decide, by decide⟩

theorem witness_HostReachesOnlyItsInterface :
    ∃ t, step ((s0.setWait (some 5)).setSchedule [.host (.keyPress 11)]) = .next t ∧ t.v ≠ s0.v := ⟨_, rfl, by decide⟩

theorem witness_LastKeyIsNotObservable : (∃ t, step s0 = .next t) ∧ step State.reset = .fault .loopNotStarted ∧
    step (State.reset.setSchedule [.tick]) = .refused .tickOutsideRunning := ⟨⟨_, rfl⟩, rfl, rfl⟩

theorem witness_OutputTraceIsOnlyAppendedTo : ∃ t, step (s1 0x00E0) = .next t ∧ t.events ≠ (s1 0x00E0).events :=
  ⟨_, rfl, by decide⟩

theorem witness_EveryLineAssemblesToItsWord : Unlisted 0x5121 := unlisted_of_all _ rfl

end Sys2Proof.Tests
end

section
/-! PROOF. The load at construction (R69, R307): which programs fit, and what memory holds after the copy. -/
namespace Sys2Proof.Machine

theorem construct_of_fits {bytes : List Byte} (h : bytes.length ≤ Config.progMax) :
    construct bytes = .loaded (State.reset.setMem (Memory.storeBytes State.reset.mem Config.progBase bytes)) :=
  if_pos h

theorem construct_of_oversized {bytes : List Byte} (h : Config.progMax < bytes.length) :
    construct bytes = .oversizedProgram :=
  if_neg (Nat.not_le_of_lt h)

/-- A store that ends inside memory leaves byte `j` at the start address plus `j`. -/
theorem Memory.read_storeBytes_inside {m : Memory} {a : Nat} {bs : List Byte} (hm : Memory.wf m)
    (ha : a + bs.length ≤ 4096) (j : Nat) (hj : j < bs.length) :
    Memory.read (Memory.storeBytes m a bs) (a + j) = bs[j] := by
  rw [Memory.read_storeBytes hm ha, if_pos (by omega), Nat.add_sub_cancel_left, List.getD_eq_getElem _ _ hj]

/-- A store that ends inside memory leaves every byte before and after it. -/
theorem Memory.read_storeBytes_outside {m : Memory} {a : Nat} {bs : List Byte} (hm : Memory.wf m)
    (ha : a + bs.length ≤ 4096) {k : Nat} (hk : k < a ∨ a + bs.length ≤ k) :
    Memory.read (Memory.storeBytes m a bs) k = Memory.read m k := by
  rw [Memory.read_storeBytes hm ha, if_neg (by omega)]

/-- Settles O46: a program that fits ends inside memory, so the copy is a store whose bytes the store rules give. -/
theorem loadCopiesTheProgram : Obligations.LoadCopiesTheProgram := by
  unfold Obligations.LoadCopiesTheProgram
  refine ⟨fun bytes fits => ?_, fun bytes oversized => construct_of_oversized oversized⟩
  have inside : Config.progBase + bytes.length ≤ 4096 := Nat.add_le_add_left fits 512
  exact ⟨_, construct_of_fits fits, rfl,
    Memory.storeBytes_wf State.reset_mem_wf inside,
    Memory.read_storeBytes_inside State.reset_mem_wf inside,
    fun _ => Memory.read_storeBytes_outside State.reset_mem_wf inside⟩

end Sys2Proof.Machine
end

section
/-! PROOF. The decoder's fields (R91) and the fetched word (R66) as numbers. -/
namespace Sys2Proof

/-- A concatenation has its first operand in the high positions, so as a number it is a sum by place value. -/
theorem toNat_append_eq_mul_add {m n : Nat} (a : BitVec m) (b : BitVec n) :
    (a ++ b).toNat = a.toNat * 2 ^ n + b.toNat := by
  rw [BitVec.toNat_append, ← Nat.shiftLeft_add_eq_or_of_lt b.isLt, Nat.shiftLeft_eq]

/-- An extracted bit range is a quotient by the bits below it, reduced to its length. -/
theorem toNat_extractLsb'_eq_div_mod {w : Nat} (a : BitVec w) (start len : Nat) :
    (a.extractLsb' start len).toNat = a.toNat / 2 ^ start % 2 ^ len := by
  rw [BitVec.extractLsb'_toNat, Nat.shiftRight_eq_div_pow]

/-- A range that starts at bit 0 is a remainder. -/
theorem toNat_extractLsb'_zero {w : Nat} (a : BitVec w) (len : Nat) :
    (a.extractLsb' 0 len).toNat = a.toNat % 2 ^ len := by
  rw [toNat_extractLsb'_eq_div_mod, Nat.pow_zero, Nat.div_one]

/-- The family needs no reduction: nothing stands above bit 15. -/
theorem fieldFamily_toNat (w : Word) : (fieldFamily w).toNat = w.toNat / 4096 := by
  have top : w.toNat / 4096 < 16 := Nat.div_lt_of_lt_mul w.isLt
  exact (toNat_extractLsb'_eq_div_mod w 12 4).trans (Nat.mod_eq_of_lt top)

theorem fieldX_val (w : Word) : (fieldX w).val = w.toNat / 256 % 16 :=
  toNat_extractLsb'_eq_div_mod w 8 4

theorem fieldY_val (w : Word) : (fieldY w).val = w.toNat / 16 % 16 :=
  toNat_extractLsb'_eq_div_mod w 4 4

theorem fieldKk_toNat (w : Word) : (fieldKk w).toNat = w.toNat % 256 :=
  toNat_extractLsb'_zero w 8

theorem fieldN_toNat (w : Word) : (fieldN w).toNat = w.toNat % 16 :=
  toNat_extractLsb'_zero w 4

theorem fieldNnn_toNat (w : Word) : (fieldNnn w).toNat = w.toNat % 4096 :=
  toNat_extractLsb'_zero w 12

theorem fieldKk_toNat_eq_y_n (w : Word) : (fieldKk w).toNat = (fieldY w).val * 16 + (fieldN w).toNat := by
  rw [fieldKk_eq]
  exact toNat_append_eq_mul_add (regField (fieldY w)) (fieldN w)

theorem fieldNnn_toNat_eq_x_kk (w : Word) : (fieldNnn w).toNat = (fieldX w).val * 256 + (fieldKk w).toNat := by
  rw [fieldNnn_eq]
  exact toNat_append_eq_mul_add (regField (fieldX w)) (fieldKk w)

theorem wordOfBytes_toNat (hi lo : Byte) : (wordOfBytes hi lo).toNat = hi.toNat * 256 + lo.toNat :=
  toNat_append_eq_mul_add hi lo

/-- Settles O2: each field is an extraction, hence a quotient and remainder; the composed fields and the fetched word
are concatenations, hence sums by place value. -/
theorem fieldsAreTheBitRanges : Obligations.FieldsAreTheBitRanges := by
  unfold Obligations.FieldsAreTheBitRanges
  exact ⟨fun w => ⟨fieldFamily_toNat w, fieldX_val w, fieldY_val w, fieldKk_toNat w, fieldN_toNat w, fieldNnn_toNat w,
    fieldKk_toNat_eq_y_n w, fieldNnn_toNat_eq_x_kk w⟩, wordOfBytes_toNat⟩

end Sys2Proof
end

section
/-! PROOF. Decoding loses no bit: every word is the encoding of what it decodes to (R101, R128), so it matches the row of
the instruction it decodes to (R100). -/
namespace Sys2Proof

theorem encodeNnn_of_family {w : Word} {f : Nibble} (hf : fieldFamily w = f) : encodeNnn f (fieldNnn w) = w := by
  rw [← hf, encodeNnn_fields]

theorem encodeXkk_of_family_kk {w : Word} {f : Nibble} {kk : Byte} (hf : fieldFamily w = f) (hk : fieldKk w = kk) :
    encodeXkk f (fieldX w) kk = w := by
  rw [← hf, ← hk, encodeXkk_fields]

theorem encodeXyn_of_family_n {w : Word} {f n : Nibble} (hf : fieldFamily w = f) (hn : fieldN w = n) :
    encodeXyn f (fieldX w) (fieldY w) n = w := by
  rw [← hf, ← hn, encodeXyn_fields]

theorem encodeWord_decodeFamily0 {w : Word} (hf : fieldFamily w = 0x0#4) : encodeWord (decodeFamily0 w) = w := by
  unfold decodeFamily0
  split_ifs with hcls hret
  · exact hcls.symm
  · exact hret.symm
  · exact encodeNnn_of_family hf

theorem encodeWord_decodeFamily5 {w : Word} (hf : fieldFamily w = 0x5#4) : encodeWord (decodeFamily5 w) = w := by
  unfold decodeFamily5
  split_ifs with hn
  · exact encodeXyn_of_family_n hf hn
  · exact encodeXyn_of_family_n hf rfl

/-- A listed row fixes `n` to the value the decoder compared it with; the no-op row keeps the word's own. -/
theorem encodeWord_decodeFamily8 {w : Word} (hf : fieldFamily w = 0x8#4) : encodeWord (decodeFamily8 w) = w := by
  unfold decodeFamily8
  split_ifs
  case neg => exact encodeXyn_of_family_n hf rfl
  all_goals exact encodeXyn_of_family_n hf ‹_›

theorem encodeWord_decodeFamily9 {w : Word} (hf : fieldFamily w = 0x9#4) : encodeWord (decodeFamily9 w) = w := by
  unfold decodeFamily9
  split_ifs with hn
  · exact encodeXyn_of_family_n hf hn
  · exact encodeXyn_of_family_n hf rfl

theorem encodeWord_decodeFamilyE {w : Word} (hf : fieldFamily w = 0xE#4) : encodeWord (decodeFamilyE w) = w := by
  unfold decodeFamilyE
  split_ifs with hskp hsknp
  · exact encodeXkk_of_family_kk hf hskp
  · exact encodeXkk_of_family_kk hf hsknp
  · exact encodeXkk_of_family_kk hf rfl

/-- A listed row fixes `kk` to the value the decoder compared it with; the no-op row keeps the word's own. -/
theorem encodeWord_decodeFamilyF {w : Word} (hf : fieldFamily w = 0xF#4) : encodeWord (decodeFamilyF w) = w := by
  unfold decodeFamilyF
  split_ifs
  case neg => exact encodeXkk_of_family_kk hf rfl
  all_goals exact encodeXkk_of_family_kk hf ‹_›

/-- The decoder's last branch is reached by family F alone. -/
theorem nibble_eq_F_of_ne (f : Nibble) (h0 : f ≠ 0x0#4) (h1 : f ≠ 0x1#4) (h2 : f ≠ 0x2#4) (h3 : f ≠ 0x3#4)
    (h4 : f ≠ 0x4#4) (h5 : f ≠ 0x5#4) (h6 : f ≠ 0x6#4) (h7 : f ≠ 0x7#4) (h8 : f ≠ 0x8#4) (h9 : f ≠ 0x9#4)
    (hA : f ≠ 0xA#4) (hB : f ≠ 0xB#4) (hC : f ≠ 0xC#4) (hD : f ≠ 0xD#4) (hE : f ≠ 0xE#4) : f = 0xF#4 := by
  bv_omega

/-- A decoder's comparison loses no bit when neither of its branches does. -/
theorem encodeWord_ite {w : Word} {c : Prop} [Decidable c] {i j : Instr} (hi : c → encodeWord i = w)
    (hj : ¬ c → encodeWord j = w) : encodeWord (if c then i else j) = w :=
  iteInduction (motive := fun i => encodeWord i = w) hi hj

theorem encodeWord_decodeWord (w : Word) : encodeWord (decodeWord w) = w :=
  encodeWord_ite encodeWord_decodeFamily0 fun h0 =>
  encodeWord_ite encodeNnn_of_family fun h1 =>
  encodeWord_ite encodeNnn_of_family fun h2 =>
  encodeWord_ite (encodeXkk_of_family_kk · rfl) fun h3 =>
  encodeWord_ite (encodeXkk_of_family_kk · rfl) fun h4 =>
  encodeWord_ite encodeWord_decodeFamily5 fun h5 =>
  encodeWord_ite (encodeXkk_of_family_kk · rfl) fun h6 =>
  encodeWord_ite (encodeXkk_of_family_kk · rfl) fun h7 =>
  encodeWord_ite encodeWord_decodeFamily8 fun h8 =>
  encodeWord_ite encodeWord_decodeFamily9 fun h9 =>
  encodeWord_ite encodeNnn_of_family fun hA =>
  encodeWord_ite encodeNnn_of_family fun hB =>
  encodeWord_ite (encodeXkk_of_family_kk · rfl) fun hC =>
  encodeWord_ite (encodeXyn_of_family_n · rfl) fun hD =>
  encodeWord_ite encodeWord_decodeFamilyE fun hE =>
  encodeWord_decodeFamilyF (nibble_eq_F_of_ne _ h0 h1 h2 h3 h4 h5 h6 h7 h8 h9 hA hB hC hD hE)

/-- The law of every constructor's row, put together. -/
theorem encodeWord_and_rowMask : ∀ i : Instr, encodeWord i &&& i.rowMask = i.rowMatch
  | .cls => Laws.EncodesItsRow.cls
  | .ret => Laws.EncodesItsRow.ret
  | .jp nnn => Laws.EncodesItsRow.jp nnn
  | .call nnn => Laws.EncodesItsRow.call nnn
  | .seImm x kk => Laws.EncodesItsRow.seImm x kk
  | .sneImm x kk => Laws.EncodesItsRow.sneImm x kk
  | .seReg x y => Laws.EncodesItsRow.seReg x y
  | .ldImm x kk => Laws.EncodesItsRow.ldImm x kk
  | .addImm x kk => Laws.EncodesItsRow.addImm x kk
  | .ldReg x y => Laws.EncodesItsRow.ldReg x y
  | .orReg x y => Laws.EncodesItsRow.orReg x y
  | .andReg x y => Laws.EncodesItsRow.andReg x y
  | .xorReg x y => Laws.EncodesItsRow.xorReg x y
  | .addReg x y => Laws.EncodesItsRow.addReg x y
  | .sub x y => Laws.EncodesItsRow.sub x y
  | .shr x y => Laws.EncodesItsRow.shr x y
  | .subn x y => Laws.EncodesItsRow.subn x y
  | .shl x y => Laws.EncodesItsRow.shl x y
  | .sneReg x y => Laws.EncodesItsRow.sneReg x y
  | .ldI nnn => Laws.EncodesItsRow.ldI nnn
  | .jpV0 nnn => Laws.EncodesItsRow.jpV0 nnn
  | .rnd x kk => Laws.EncodesItsRow.rnd x kk
  | .drw x y n => Laws.EncodesItsRow.drw x y n
  | .skp x => Laws.EncodesItsRow.skp x
  | .sknp x => Laws.EncodesItsRow.sknp x
  | .ldVxDt x => Laws.EncodesItsRow.ldVxDt x
  | .ldVxK x => Laws.EncodesItsRow.ldVxK x
  | .ldDt x => Laws.EncodesItsRow.ldDt x
  | .ldSt x => Laws.EncodesItsRow.ldSt x
  | .addI x => Laws.EncodesItsRow.addI x
  | .ldF x => Laws.EncodesItsRow.ldF x
  | .ldB x => Laws.EncodesItsRow.ldB x
  | .ldMemVx x => Laws.EncodesItsRow.ldMemVx x
  | .ldVxMem x => Laws.EncodesItsRow.ldVxMem x
  | .nop0 nnn => Laws.EncodesItsRow.nop0 nnn
  | .nop5 x y n => Laws.EncodesItsRow.nop5 x y n
  | .nop8 x y n => Laws.EncodesItsRow.nop8 x y n
  | .nop9 x y n => Laws.EncodesItsRow.nop9 x y n
  | .nopE x kk => Laws.EncodesItsRow.nopE x kk
  | .nopF x kk => Laws.EncodesItsRow.nopF x kk

theorem and_rowMask_decodeWord (w : Word) : w &&& (decodeWord w).rowMask = (decodeWord w).rowMatch :=
  calc w &&& (decodeWord w).rowMask
      = encodeWord (decodeWord w) &&& (decodeWord w).rowMask := by rw [encodeWord_decodeWord]
    _ = (decodeWord w).rowMatch := encodeWord_and_rowMask _

end Sys2Proof
end

section
/-! PROOF. The no-op instructions (R102, R125): what they do, and which words decode to them. -/
namespace Sys2Proof

/-- The six fallback rows (R102). -/
def Instr.isNoOp : Instr → Bool
  | .nop0 _ | .nop5 _ _ _ | .nop8 _ _ _ | .nop9 _ _ _ | .nopE _ _ | .nopF _ _ => true
  | _ => false

end Sys2Proof

namespace Sys2Proof.Machine

theorem exec_nop0 (nnn : Addr12) (s : State) : exec (.nop0 nnn) s = .next s := rfl

theorem exec_nop5 (x y : Reg) (n : Nibble) (s : State) : exec (.nop5 x y n) s = .next s := rfl

theorem exec_nop8 (x y : Reg) (n : Nibble) (s : State) : exec (.nop8 x y n) s = .next s := rfl

theorem exec_nop9 (x y : Reg) (n : Nibble) (s : State) : exec (.nop9 x y n) s = .next s := rfl

theorem exec_nopE (x : Reg) (kk : Byte) (s : State) : exec (.nopE x kk) s = .next s := rfl

theorem exec_nopF (x : Reg) (kk : Byte) (s : State) : exec (.nopF x kk) s = .next s := rfl

theorem exec_of_isNoOp {i : Instr} (h : i.isNoOp = true) (s : State) : exec i s = .next s := by
  cases i with
  | nop0 nnn => exact exec_nop0 nnn s
  | nop5 x y n => exact exec_nop5 x y n s
  | nop8 x y n => exact exec_nop8 x y n s
  | nop9 x y n => exact exec_nop9 x y n s
  | nopE x kk => exact exec_nopE x kk s
  | nopF x kk => exact exec_nopF x kk s
  | _ => exact absurd h Bool.false_ne_true

/-- The row of every instruction that is no fallback is one of the 34 (R100). -/
theorem row_listed_of_not_isNoOp {i : Instr} (h : i.isNoOp = false) :
    (i.rowMask, i.rowMatch) ∈ listedRowsLow ++ listedRowsHigh := by
  cases i with
  | nop0 | nop5 | nop8 | nop9 | nopE | nopF => exact absurd h.symm Bool.false_ne_true
  | _ => simp [Instr.rowMask, Instr.rowMatch, listedRowsLow, listedRowsHigh]

/-- A word always matches its own instruction's row, so the row of an unlisted word is a fallback row (R102). -/
theorem isNoOp_decodeWord_of_unlisted {w : Word} (h : Unlisted w) : (decodeWord w).isNoOp = true := by
  by_contra listed
  exact h _ (row_listed_of_not_isNoOp (Bool.eq_false_of_not_eq_true listed)) (and_rowMask_decodeWord w)

/-- Settles O6: the meaning of each of the six. -/
theorem noOpsChangeNothing : Obligations.NoOpsChangeNothing := by
  unfold Obligations.NoOpsChangeNothing
  exact fun s x y n kk nnn => ⟨exec_nop0 nnn s, exec_nop5 x y n s, exec_nop8 x y n s, exec_nop9 x y n s,
    exec_nopE x kk s, exec_nopF x kk s⟩

end Sys2Proof.Machine
end

section
/-! PROOF. The loop's step as an equation: a ready loop whose turn it is makes one cycle with its turn taken from the
schedule (R120), and a cycle halts or runs the word at PC (R121, R122). -/
namespace Sys2Proof.Machine

theorem State.setSchedule_self {s : State} {l : List Turn} (h : s.schedule = l) : s.setSchedule l = s := by
  subst h
  rfl

theorem step_of_schedule_nil {s : State} (h : s.schedule = []) : step s = loopTurn s := by
  simp only [step, advanceOne, h]

theorem step_of_schedule_cons {s : State} {u : Turn} {rest : List Turn} (h : s.schedule = u :: rest) :
    step s = takeTurn u (s.setSchedule rest) := by
  simp only [step, advanceOne, h]

theorem step_of_loopReady {s : State} {rest : List Turn} (ready : s.LoopReady) (next : s.LoopNext rest) :
    step s = cycle (s.setSchedule rest) := by
  rcases next with ⟨unscheduled, rfl⟩ | scheduled
  · rw [step_of_schedule_nil unscheduled, loopTurn_ready ready, State.setSchedule_self unscheduled]
  · rw [step_of_schedule_cons scheduled]
    exact loopTurn_ready (s := s.setSchedule rest) ready

theorem cycle_of_pc_outside {s : State} (h : 4095 ≤ s.pc.toNat) : cycle s = .next (s.halt .pcOutOfRange s.pc none) :=
  if_pos h

theorem cycle_of_pc_inside {s : State} (h : s.pc.toNat < 4095) :
    cycle s = exec (decodeWord (Memory.readWord s.mem s.pc.toNat)) (s.setPc (s.pc + 2#16)) :=
  if_neg (Nat.not_le_of_lt h)

/-- Settles O8: the loop's step is a cycle, and the cycle's range check of PC halts it before the fetch. -/
theorem pcOutOfRangeHalts : Obligations.PcOutOfRangeHalts := by
  unfold Obligations.PcOutOfRangeHalts
  intro s rest ready next outside
  calc step s
      = cycle (s.setSchedule rest) := step_of_loopReady ready next
    _ = .next ((s.setSchedule rest).halt .pcOutOfRange s.pc none) := cycle_of_pc_outside outside
    _ = .next { s with life := .stopped, stop := some ⟨.pcOutOfRange, s.pc, none⟩, schedule := rest } := by
        rw [State.halt_eq, State.setSchedule]

/-- Settles O5: the fetched word decodes to a no-op instruction, which leaves the state as the fetch's advance left it. -/
theorem unlistedWordsOnlyAdvancePc : Obligations.UnlistedWordsOnlyAdvancePc := by
  unfold Obligations.UnlistedWordsOnlyAdvancePc
  intro s rest ready next inside unlisted
  have noOp := isNoOp_decodeWord_of_unlisted unlisted
  calc step s
      = cycle (s.setSchedule rest) := step_of_loopReady ready next
    _ = exec (decodeWord (Memory.readWord s.mem s.pc.toNat)) ((s.setSchedule rest).setPc (s.pc + 2#16)) :=
        cycle_of_pc_inside inside
    _ = .next ((s.setSchedule rest).setPc (s.pc + 2#16)) := exec_of_isNoOp noOp _
    _ = .next { s with pc := s.pc + 2#16, schedule := rest } := by rw [State.setPc, State.setSchedule]

end Sys2Proof.Machine
end

section
/-! PROOF. A word that matches a row has the row's fixed fields (R91, R93, opcode_table.json), and the row of a
control-transfer instruction decodes to it (R100). -/
namespace Sys2Proof

/-- The mask of a row that fixes the family alone keeps the family. -/
theorem fieldFamily_of_row {w m : Word} (row : w &&& 0xF000#16 = m) : fieldFamily w = fieldFamily m := by
  have masked : encodeNnn (fieldFamily w) 0 = m := by rw [← encodeNnn_masked, encodeNnn_fields, row]
  rw [← masked, fieldFamily_nnn]

/-- The mask of a row that fixes the family and `n` keeps both. -/
theorem fieldFamily_fieldN_of_row {w m : Word} (row : w &&& 0xF00F#16 = m) :
    fieldFamily w = fieldFamily m ∧ fieldN w = fieldN m := by
  have masked : encodeXyn (fieldFamily w) 0 0 (fieldN w) = m := by rw [← encodeXyn_masked, encodeXyn_fields, row]
  rw [← masked, fieldFamily_xyn, fieldN_xyn]
  exact ⟨rfl, rfl⟩

theorem decodeWord_of_family1 {w : Word} (hf : fieldFamily w = 0x1#4) : decodeWord w = .jp (fieldNnn w) := by
  simp [decodeWord, hf]

theorem decodeWord_of_family2 {w : Word} (hf : fieldFamily w = 0x2#4) : decodeWord w = .call (fieldNnn w) := by
  simp [decodeWord, hf]

theorem decodeWord_of_family3 {w : Word} (hf : fieldFamily w = 0x3#4) :
    decodeWord w = .seImm (fieldX w) (fieldKk w) := by
  simp [decodeWord, hf]

theorem decodeWord_of_family4 {w : Word} (hf : fieldFamily w = 0x4#4) :
    decodeWord w = .sneImm (fieldX w) (fieldKk w) := by
  simp [decodeWord, hf]

theorem decodeWord_of_family5 {w : Word} (hf : fieldFamily w = 0x5#4) : decodeWord w = decodeFamily5 w := by
  simp [decodeWord, hf]

theorem decodeWord_of_family9 {w : Word} (hf : fieldFamily w = 0x9#4) : decodeWord w = decodeFamily9 w := by
  simp [decodeWord, hf]

theorem decodeWord_of_familyB {w : Word} (hf : fieldFamily w = 0xB#4) : decodeWord w = .jpV0 (fieldNnn w) := by
  simp [decodeWord, hf]

theorem decodeFamily5_of_n_zero {w : Word} (hn : fieldN w = 0x0#4) :
    decodeFamily5 w = .seReg (fieldX w) (fieldY w) :=
  if_pos hn

theorem decodeFamily9_of_n_zero {w : Word} (hn : fieldN w = 0x0#4) :
    decodeFamily9 w = .sneReg (fieldX w) (fieldY w) :=
  if_pos hn

end Sys2Proof

namespace Sys2Proof.Machine

theorem jp_rowDecodes : RowDecodes 0xF000 0x1000 (fun w => .jp (fieldNnn w)) :=
  fun _ row => decodeWord_of_family1 (fieldFamily_of_row row)

theorem call_rowDecodes : RowDecodes 0xF000 0x2000 (fun w => .call (fieldNnn w)) :=
  fun _ row => decodeWord_of_family2 (fieldFamily_of_row row)

theorem seImm_rowDecodes : RowDecodes 0xF000 0x3000 (fun w => .seImm (fieldX w) (fieldKk w)) :=
  fun _ row => decodeWord_of_family3 (fieldFamily_of_row row)

theorem sneImm_rowDecodes : RowDecodes 0xF000 0x4000 (fun w => .sneImm (fieldX w) (fieldKk w)) :=
  fun _ row => decodeWord_of_family4 (fieldFamily_of_row row)

theorem seReg_rowDecodes : RowDecodes 0xF00F 0x5000 (fun w => .seReg (fieldX w) (fieldY w)) := by
  intro w row
  obtain ⟨family, n⟩ := fieldFamily_fieldN_of_row row
  exact (decodeWord_of_family5 family).trans (decodeFamily5_of_n_zero n)

theorem sneReg_rowDecodes : RowDecodes 0xF00F 0x9000 (fun w => .sneReg (fieldX w) (fieldY w)) := by
  intro w row
  obtain ⟨family, n⟩ := fieldFamily_fieldN_of_row row
  exact (decodeWord_of_family9 family).trans (decodeFamily9_of_n_zero n)

theorem jpV0_rowDecodes : RowDecodes 0xF000 0xB000 (fun w => .jpV0 (fieldNnn w)) :=
  fun _ row => decodeWord_of_familyB (fieldFamily_of_row row)

end Sys2Proof.Machine
end

section
/-! PROOF. The jumps (R151, R153): their targets as numbers, and PC as the only field they write. -/
namespace Sys2Proof.Machine

theorem exec_jp (nnn : Addr12) (s : State) : exec (.jp nnn) s = .next (s.setPc (zextNnn nnn)) := rfl

theorem exec_jpV0 (nnn : Addr12) (s : State) : exec (.jpV0 nnn) s = .next (s.setPc (s.jumpSum nnn)) := rfl

@[simp] theorem zextNnn_toNat (nnn : Addr12) : (zextNnn nnn).toNat = nnn.toNat :=
  BitVec.toNat_setWidth_of_le (by decide)

@[simp] theorem zextByte_toNat (b : Byte) : (zextByte b).toNat = b.toNat :=
  BitVec.toNat_setWidth_of_le (by decide)

/-- The sum of a 12-bit address and a byte fits PC, so PC's addition does not wrap (D42). -/
theorem State.jumpSum_toNat (s : State) (nnn : Addr12) :
    (s.jumpSum nnn).toNat = nnn.toNat + (s.readV 0).toNat := by
  have address := nnn.isLt
  have offset := (s.readV 0).isLt
  rw [State.jumpSum, BitVec.toNat_add, zextNnn_toNat, zextByte_toNat, Nat.mod_eq_of_lt (by omega)]

/-- Settles O10: the row decodes by its family, and PC takes the zero-extended target. -/
theorem jumpSetsPcToNnn : Obligations.JumpSetsPcToNnn := by
  unfold Obligations.JumpSetsPcToNnn
  exact ⟨jp_rowDecodes, fun s nnn => ⟨_, exec_jp nnn s, rfl, zextNnn_toNat nnn⟩⟩

/-- Settles O11: the row decodes by its family, and the sum that PC takes does not wrap. -/
theorem jumpPlusV0SetsPcToTheSum : Obligations.JumpPlusV0SetsPcToTheSum := by
  unfold Obligations.JumpPlusV0SetsPcToTheSum
  exact ⟨jpV0_rowDecodes, fun s nnn => ⟨_, exec_jpV0 nnn s, rfl, s.jumpSum_toNat nnn⟩⟩

end Sys2Proof.Machine
end

section
/-! PROOF. Call and return (R150, R152): what they do on a stack with room or an entry (R34, R35), and the fault that a
full or an empty stack raises (R304, R305, D22). -/
namespace Sys2Proof.Machine

theorem exec_call (nnn : Addr12) (s : State) :
    exec (.call nnn) s = pushAndJump (.call nnn) (zextNnn nnn) s := rfl

theorem exec_ret (s : State) : exec .ret s = popAndJump .ret s := rfl

/-- `Push` on a full stack faults before any effect (R304). -/
theorem pushAndJump_full {i : Instr} {target : Word} {s : State} (full : s.sp.toNat = 16) :
    pushAndJump i target s = raiseFault .stackOverflow i s :=
  if_pos (BitVec.eq_of_toNat_eq full)

/-- `Pop` on an empty stack faults before any effect (R305). -/
theorem popAndJump_empty {i : Instr} {s : State} (empty : s.sp.toNat = 0) :
    popAndJump i s = raiseFault .stackUnderflow i s :=
  if_pos (BitVec.eq_of_toNat_eq empty)

theorem State.sp_ne_zero {s : State} {n : Nat} (held : s.sp.toNat = n + 1) : s.sp ≠ 0#8 := by
  intro empty
  simp [empty] at held

/-- The lowered SP of a stack whose top entry is in slot `j`. -/
theorem State.sp_sub_one_toNat {s : State} {j : Fin 16} (top : s.sp.toNat = j.val + 1) :
    (s.sp - 1#8).toNat = j.val := by
  rw [byte_sub_one (State.sp_ne_zero top), top, Nat.add_sub_cancel]

/-- `Pop` of the top entry, in slot `j`, into PC (R35). -/
theorem popAndJump_top {i : Instr} {s : State} {j : Fin 16} (top : s.sp.toNat = j.val + 1) :
    popAndJump i s = .next ((s.setSp (s.sp - 1#8)).setPc s.stack[j.val]) := by
  have lowered := State.sp_sub_one_toNat top
  simp only [popAndJump_held (State.sp_ne_zero top) (lowered ▸ j.isLt), lowered]

/-- SP with room below 16 rises by one without wrapping (R34). -/
theorem State.sp_add_one_toNat {s : State} (room : s.sp.toNat < 16) : (s.sp + 1#8).toNat = s.sp.toNat + 1 := by
  rw [BitVec.toNat_add_of_lt (show s.sp.toNat + 1 < 2 ^ 8 by omega)]
  rfl

/-- A slot as written, every other as before. -/
theorem State.setSlot_slot (s : State) (k j : Fin 16) (a : Word) :
    (s.setSlot k a).stack[j.val] = if j.val = k.val then a else s.stack[j.val] := by
  simp only [State.setSlot_stack, Vector.getElem_set, eq_comm]

/-- Settles O12: SP below 16 pushes PC into slot SP and jumps; SP at 16 raises the overflow fault. -/
theorem callPushesPcAndJumps : Obligations.CallPushesPcAndJumps := by
  unfold Obligations.CallPushesPcAndJumps
  refine ⟨call_rowDecodes, fun s nnn room => ?_, fun s nnn full => ?_⟩
  · exact ⟨_, (exec_call nnn s).trans (pushAndJump_room room), rfl, State.sp_add_one_toNat room, zextNnn_toNat nnn,
      fun j => s.setSlot_slot ⟨s.sp.toNat, room⟩ j s.pc⟩
  · rw [exec_call, pushAndJump_full full, raiseFault_eq]

/-- Settles O13: an entry on the stack is popped into PC; SP at 0 raises the underflow fault with the word 00EE. -/
theorem returnPopsIntoPc : Obligations.ReturnPopsIntoPc := by
  unfold Obligations.ReturnPopsIntoPc
  refine ⟨by decide, fun s j top => ?_, fun s empty => ?_⟩
  · exact ⟨_, (exec_ret s).trans (popAndJump_top top), rfl, State.sp_sub_one_toNat top⟩
  · rw [exec_ret, popAndJump_empty empty, raiseFault_eq, encodeWord]

end Sys2Proof.Machine
end

section
/-! PROOF. The skips that compare two bytes (R154 to R157): a skip's condition on bytes as one on numbers. -/
namespace Sys2Proof.Machine

theorem exec_seImm (x : Reg) (kk : Byte) (s : State) :
    exec (.seImm x kk) s = .next (s.skipIf (s.readV x == kk)) := rfl

theorem exec_sneImm (x : Reg) (kk : Byte) (s : State) :
    exec (.sneImm x kk) s = .next (s.skipIf (s.readV x != kk)) := rfl

theorem exec_seReg (x y : Reg) (s : State) :
    exec (.seReg x y) s = .next (s.skipIf (s.readV x == s.readV y)) := rfl

theorem exec_sneReg (x y : Reg) (s : State) :
    exec (.sneReg x y) s = .next (s.skipIf (s.readV x != s.readV y)) := rfl

/-- A skip on equal bytes (R154, R156). -/
theorem State.skipIf_beq (s : State) (a b : Byte) :
    s.skipIf (a == b) = { s with pc := if a.toNat = b.toNat then s.pc + 2#16 else s.pc } := by
  simp only [State.skipIf_eq, beq_iff_eq, BitVec.toNat_inj]

/-- A skip on different bytes (R155, R157). -/
theorem State.skipIf_bne (s : State) (a b : Byte) :
    s.skipIf (a != b) = { s with pc := if a.toNat = b.toNat then s.pc else s.pc + 2#16 } := by
  simp only [State.skipIf_eq, bne_iff_ne, ne_eq, ite_not, BitVec.toNat_inj]

/-- Settles O16: the rows decode by their family, and each skip compares Vx with kk. -/
theorem immediateSkips : Obligations.ImmediateSkips := by
  unfold Obligations.ImmediateSkips
  refine ⟨seImm_rowDecodes, sneImm_rowDecodes, fun s x kk => ⟨?_, ?_⟩⟩
  · rw [exec_seImm, State.skipIf_beq]
  · rw [exec_sneImm, State.skipIf_bne]

/-- Settles O17: the rows decode by their family and `n`, and each skip compares Vx with Vy. -/
theorem registerSkips : Obligations.RegisterSkips := by
  unfold Obligations.RegisterSkips
  refine ⟨seReg_rowDecodes, sneReg_rowDecodes, fun s x y => ⟨?_, ?_⟩⟩
  · rw [exec_seReg, State.skipIf_beq]
  · rw [exec_sneReg, State.skipIf_bne]

end Sys2Proof.Machine
end

section
/-! PROOF. The row of a register or arithmetic instruction decodes to it (R100): families 6, 7 and C are one row each,
and family 8 picks its row by `n`. -/
namespace Sys2Proof

theorem decodeWord_of_family6 {w : Word} (hf : fieldFamily w = 0x6#4) :
    decodeWord w = .ldImm (fieldX w) (fieldKk w) := by
  simp [decodeWord, hf]

theorem decodeWord_of_family7 {w : Word} (hf : fieldFamily w = 0x7#4) :
    decodeWord w = .addImm (fieldX w) (fieldKk w) := by
  simp [decodeWord, hf]

theorem decodeWord_of_family8 {w : Word} (hf : fieldFamily w = 0x8#4) : decodeWord w = decodeFamily8 w := by
  simp [decodeWord, hf]

theorem decodeWord_of_familyC {w : Word} (hf : fieldFamily w = 0xC#4) :
    decodeWord w = .rnd (fieldX w) (fieldKk w) := by
  simp [decodeWord, hf]

end Sys2Proof

namespace Sys2Proof.Machine

theorem ldImm_rowDecodes : RowDecodes 0xF000 0x6000 (fun w => .ldImm (fieldX w) (fieldKk w)) :=
  fun _ row => decodeWord_of_family6 (fieldFamily_of_row row)

theorem addImm_rowDecodes : RowDecodes 0xF000 0x7000 (fun w => .addImm (fieldX w) (fieldKk w)) :=
  fun _ row => decodeWord_of_family7 (fieldFamily_of_row row)

theorem rnd_rowDecodes : RowDecodes 0xF000 0xC000 (fun w => .rnd (fieldX w) (fieldKk w)) :=
  fun _ row => decodeWord_of_familyC (fieldFamily_of_row row)

/-- A row of family 8 decodes to what the family's decoder answers for the row's `n`. -/
theorem family8_rowDecodes {m : Word} {n : Nibble} {f : Word → Instr} (hf : fieldFamily m = 0x8#4) (hn : fieldN m = n)
    (decoded : ∀ w, fieldN w = n → decodeFamily8 w = f w) : RowDecodes 0xF00F m f := by
  intro w row
  obtain ⟨family, low⟩ := fieldFamily_fieldN_of_row row
  exact (decodeWord_of_family8 (family.trans hf)).trans (decoded w (low.trans hn))

theorem ldReg_rowDecodes : RowDecodes 0xF00F 0x8000 (fun w => .ldReg (fieldX w) (fieldY w)) :=
  family8_rowDecodes (n := 0x0#4) rfl rfl fun w hn => by simp [decodeFamily8, hn]

theorem orReg_rowDecodes : RowDecodes 0xF00F 0x8001 (fun w => .orReg (fieldX w) (fieldY w)) :=
  family8_rowDecodes (n := 0x1#4) rfl rfl fun w hn => by simp [decodeFamily8, hn]

theorem andReg_rowDecodes : RowDecodes 0xF00F 0x8002 (fun w => .andReg (fieldX w) (fieldY w)) :=
  family8_rowDecodes (n := 0x2#4) rfl rfl fun w hn => by simp [decodeFamily8, hn]

theorem xorReg_rowDecodes : RowDecodes 0xF00F 0x8003 (fun w => .xorReg (fieldX w) (fieldY w)) :=
  family8_rowDecodes (n := 0x3#4) rfl rfl fun w hn => by simp [decodeFamily8, hn]

theorem addReg_rowDecodes : RowDecodes 0xF00F 0x8004 (fun w => .addReg (fieldX w) (fieldY w)) :=
  family8_rowDecodes (n := 0x4#4) rfl rfl fun w hn => by simp [decodeFamily8, hn]

theorem sub_rowDecodes : RowDecodes 0xF00F 0x8005 (fun w => .sub (fieldX w) (fieldY w)) :=
  family8_rowDecodes (n := 0x5#4) rfl rfl fun w hn => by simp [decodeFamily8, hn]

theorem shr_rowDecodes : RowDecodes 0xF00F 0x8006 (fun w => .shr (fieldX w) (fieldY w)) :=
  family8_rowDecodes (n := 0x6#4) rfl rfl fun w hn => by simp [decodeFamily8, hn]

theorem subn_rowDecodes : RowDecodes 0xF00F 0x8007 (fun w => .subn (fieldX w) (fieldY w)) :=
  family8_rowDecodes (n := 0x7#4) rfl rfl fun w hn => by simp [decodeFamily8, hn]

theorem shl_rowDecodes : RowDecodes 0xF00F 0x800E (fun w => .shl (fieldX w) (fieldY w)) :=
  family8_rowDecodes (n := 0xE#4) rfl rfl fun w hn => by simp [decodeFamily8, hn]

end Sys2Proof.Machine
end

section
/-! PROOF. The instructions that write one register and no flag (R181 to R186, R192, D13). -/
namespace Sys2Proof.Machine

theorem exec_ldImm (x : Reg) (kk : Byte) (s : State) : exec (.ldImm x kk) s = .next (s.writeV x kk) := rfl

theorem exec_addImm (x : Reg) (kk : Byte) (s : State) :
    exec (.addImm x kk) s = .next (s.writeV x (s.readV x + kk)) := rfl

theorem exec_ldReg (x y : Reg) (s : State) : exec (.ldReg x y) s = .next (s.writeV x (s.readV y)) := rfl

theorem exec_orReg (x y : Reg) (s : State) :
    exec (.orReg x y) s = .next (s.writeV x (s.readV x ||| s.readV y)) := rfl

theorem exec_andReg (x y : Reg) (s : State) :
    exec (.andReg x y) s = .next (s.writeV x (s.readV x &&& s.readV y)) := rfl

theorem exec_xorReg (x y : Reg) (s : State) :
    exec (.xorReg x y) s = .next (s.writeV x (s.readV x ^^^ s.readV y)) := rfl

theorem exec_rnd (x : Reg) (kk : Byte) (s : State) :
    exec (.rnd x kk) s = .next ((s.writeV x (Config.randByte s.draws &&& kk)).countDraw) := rfl

theorem State.readV_writeV_of_ne {s : State} {x r : Reg} {b : Byte} (h : r ≠ x) :
    (s.writeV x b).readV r = s.readV r := by
  rw [State.readV_writeV, if_neg h]

/-- Counting a draw keeps every register. -/
@[simp] theorem State.readV_countDraw (s : State) (r : Reg) : s.countDraw.readV r = s.readV r := rfl

/-- A register read after a write, as a number. -/
theorem State.readV_writeV_toNat (s : State) (x r : Reg) (b : Byte) :
    ((s.writeV x b).readV r).toNat = if r = x then b.toNat else (s.readV r).toNat := by
  rw [State.readV_writeV, apply_ite BitVec.toNat]

/-- Settles O19: the rows decode by their family and `n`, and Vx is the one register written. -/
theorem loadByteAndCopy : Obligations.LoadByteAndCopy := by
  unfold Obligations.LoadByteAndCopy
  exact ⟨ldImm_rowDecodes, ldReg_rowDecodes,
    fun s x kk => ⟨_, exec_ldImm x kk s, rfl, fun r => s.readV_writeV x r kk⟩,
    fun s x y => ⟨_, exec_ldReg x y s, rfl, fun r => s.readV_writeV x r (s.readV y)⟩⟩

/-- Settles O20: the byte sum is the sum modulo 256, and Vx is the one register written. -/
theorem addByteSetsNoFlag : Obligations.AddByteSetsNoFlag := by
  unfold Obligations.AddByteSetsNoFlag
  refine ⟨addImm_rowDecodes, fun s x kk => ⟨_, exec_addImm x kk s, rfl, fun r => ?_⟩⟩
  rw [State.readV_writeV_toNat, BitVec.toNat_add]

/-- Settles O21: each operation acts on the bits of its operands, and Vx is the one register written. -/
theorem logicSetsNoFlag : Obligations.LogicSetsNoFlag := by
  unfold Obligations.LogicSetsNoFlag
  refine ⟨orReg_rowDecodes, andReg_rowDecodes, xorReg_rowDecodes, fun s x y => ⟨_, _, _, exec_orReg x y s,
    exec_andReg x y s, exec_xorReg x y s, rfl, rfl, rfl, fun r other => ?_, fun k _ => ?_⟩⟩
  · exact ⟨State.readV_writeV_of_ne other, State.readV_writeV_of_ne other, State.readV_writeV_of_ne other⟩
  · simp only [State.readV_writeV_same]
    exact ⟨BitVec.getLsbD_or, BitVec.getLsbD_and, BitVec.getLsbD_xor⟩

/-- Settles O25: the draw's counter rises by one, and Vx takes the byte of the count before, masked bit by bit. -/
theorem randomIsOneMaskedDraw : Obligations.RandomIsOneMaskedDraw := by
  unfold Obligations.RandomIsOneMaskedDraw
  refine ⟨rnd_rowDecodes, fun s x kk => ⟨_, exec_rnd x kk s, rfl, fun r other => ?_, fun k _ => ?_⟩⟩
  · rw [State.readV_countDraw, State.readV_writeV_of_ne other]
  · rw [State.readV_countDraw, State.readV_writeV_same, BitVec.getLsbD_and]

end Sys2Proof.Machine
end

section
/-! PROOF. The instructions that write a flag and then a result (R180, R187 to R191, D3): flag and result as numbers. -/
namespace Sys2Proof.Machine

theorem exec_addReg (x y : Reg) (s : State) : exec (.addReg x y) s =
    .next (s.writeFlagThenResult x (carryFlag (s.readV x) (s.readV y)) (s.readV x + s.readV y)) := rfl

theorem exec_sub (x y : Reg) (s : State) : exec (.sub x y) s =
    .next (s.writeFlagThenResult x (greaterFlag (s.readV x) (s.readV y)) (s.readV x - s.readV y)) := rfl

theorem exec_subn (x y : Reg) (s : State) : exec (.subn x y) s =
    .next (s.writeFlagThenResult x (greaterFlag (s.readV y) (s.readV x)) (s.readV y - s.readV x)) := rfl

theorem exec_shr (x y : Reg) (s : State) : exec (.shr x y) s =
    .next (s.writeFlagThenResult x (lowBitFlag (s.readV x)) (s.readV x >>> 1)) := rfl

theorem exec_shl (x y : Reg) (s : State) : exec (.shl x y) s =
    .next (s.writeFlagThenResult x (highBitFlag (s.readV x)) (s.readV x <<< 1)) := rfl

/-- A flag is 1 or 0 (R28). -/
theorem flagByte_decide_toNat (p : Prop) [Decidable p] : (flagByte (decide p)).toNat = if p then 1 else 0 := by
  by_cases h : p <;> simp [flagByte, h]

theorem carryFlag_toNat (a b : Byte) : (carryFlag a b).toNat = if 255 < a.toNat + b.toNat then 1 else 0 :=
  flagByte_decide_toNat _

theorem greaterFlag_toNat (a b : Byte) : (greaterFlag a b).toNat = if b.toNat < a.toNat then 1 else 0 :=
  flagByte_decide_toNat _

/-- Bit 0 is the remainder of the halving. -/
theorem lowBitFlag_toNat (a : Byte) : (lowBitFlag a).toNat = a.toNat % 2 := by
  rw [lowBitFlag, BitVec.toNat_and]
  exact Nat.and_one_is_mod a.toNat

/-- The bit that the mask 80 keeps and the shift moves to the bottom is the quotient by 128. -/
theorem highBitFlag_toNat (a : Byte) : (highBitFlag a).toNat = a.toNat / 128 := by
  have top : a.toNat / 2 ^ 7 < 2 := Nat.div_lt_of_lt_mul a.isLt
  calc (highBitFlag a).toNat
      = (a.toNat &&& 0x80) >>> 7 := by rw [highBitFlag, BitVec.toNat_ushiftRight, BitVec.toNat_and]; rfl
    _ = (a.toNat >>> 7) &&& 1 := Nat.shiftRight_and_distrib
    _ = a.toNat / 2 ^ 7 % 2 := by rw [Nat.and_one_is_mod, Nat.shiftRight_eq_div_pow]
    _ = a.toNat / 128 := Nat.mod_eq_of_lt top

/-- A byte difference modulo 256, written so that the subtraction of numbers does not stop at 0. -/
theorem byte_sub_toNat (a b : Byte) : (a - b).toNat = (a.toNat + 256 - b.toNat) % 256 := by
  have subtrahend := b.isLt
  rw [BitVec.toNat_sub]
  omega

theorem byte_shiftRight_one_toNat (a : Byte) : (a >>> 1).toNat = a.toNat / 2 := by
  rw [BitVec.toNat_ushiftRight, Nat.shiftRight_one]

theorem byte_shiftLeft_one_toNat (a : Byte) : (a <<< 1).toNat = a.toNat * 2 % 256 := by
  rw [BitVec.toNat_shiftLeft, Nat.shiftLeft_eq]

/-- A register read after a flag and a result, as a number: the result stands when `x` is 15 (R180, D3). -/
theorem State.readV_writeFlagThenResult_toNat (s : State) (x r : Reg) (f b : Byte) :
    ((s.writeFlagThenResult x f b).readV r).toNat =
      if r = x then b.toNat else if r = 15 then f.toNat else (s.readV r).toNat := by
  rw [State.readV_writeFlagThenResult, regF_eq, apply_ite BitVec.toNat, apply_ite BitVec.toNat]

/-- Settles O22: the carry and the sum as numbers. -/
theorem addSetsCarryThenSum : Obligations.AddSetsCarryThenSum := by
  unfold Obligations.AddSetsCarryThenSum
  refine ⟨addReg_rowDecodes, fun s x y => ⟨_, exec_addReg x y s, rfl, fun r => ?_⟩⟩
  rw [State.readV_writeFlagThenResult_toNat, carryFlag_toNat, BitVec.toNat_add]

/-- Settles O23: the strict comparison and the difference as numbers, with the operands exchanged for 8xy7. -/
theorem subtractSetsStrictGreaterThenDifference : Obligations.SubtractSetsStrictGreaterThenDifference := by
  unfold Obligations.SubtractSetsStrictGreaterThenDifference
  refine ⟨sub_rowDecodes, subn_rowDecodes, fun s x y =>
    ⟨_, _, exec_sub x y s, exec_subn x y s, rfl, rfl, fun r => ?_, fun r => ?_⟩⟩
  · rw [State.readV_writeFlagThenResult_toNat, greaterFlag_toNat, byte_sub_toNat]
  · rw [State.readV_writeFlagThenResult_toNat, greaterFlag_toNat, byte_sub_toNat]

/-- Settles O24: the bit shifted out and the shifted byte as numbers, both of Vx alone. -/
theorem shiftsReportTheBitShiftedOut : Obligations.ShiftsReportTheBitShiftedOut := by
  unfold Obligations.ShiftsReportTheBitShiftedOut
  refine ⟨shr_rowDecodes, shl_rowDecodes, fun s x y =>
    ⟨_, _, exec_shr x y s, exec_shl x y s, rfl, rfl, fun r => ?_, fun r => ?_⟩⟩
  · rw [State.readV_writeFlagThenResult_toNat, lowBitFlag_toNat, byte_shiftRight_one_toNat]
  · rw [State.readV_writeFlagThenResult_toNat, highBitFlag_toNat, byte_shiftLeft_one_toNat]

end Sys2Proof.Machine
end

section
/-! PROOF. The row of an address-register instruction decodes to it (R100): family A is one row, and family F picks its
row by `kk`. -/
namespace Sys2Proof

/-- The mask of a row that fixes the family and `kk` keeps both. -/
theorem fieldFamily_fieldKk_of_row {w m : Word} (row : w &&& 0xF0FF#16 = m) :
    fieldFamily w = fieldFamily m ∧ fieldKk w = fieldKk m := by
  have masked : encodeXkk (fieldFamily w) 0 (fieldKk w) = m := by rw [← encodeXkk_masked, encodeXkk_fields, row]
  rw [← masked, fieldFamily_xkk, fieldKk_xkk]
  exact ⟨rfl, rfl⟩

theorem decodeWord_of_familyA {w : Word} (hf : fieldFamily w = 0xA#4) : decodeWord w = .ldI (fieldNnn w) := by
  simp [decodeWord, hf]

theorem decodeWord_of_familyF {w : Word} (hf : fieldFamily w = 0xF#4) : decodeWord w = decodeFamilyF w := by
  simp [decodeWord, hf]

end Sys2Proof

namespace Sys2Proof.Machine

theorem ldI_rowDecodes : RowDecodes 0xF000 0xA000 (fun w => .ldI (fieldNnn w)) :=
  fun _ row => decodeWord_of_familyA (fieldFamily_of_row row)

/-- A row of family F decodes to what the family's decoder answers for the row's `kk`. -/
theorem familyF_rowDecodes {m : Word} {kk : Byte} {f : Word → Instr} (hf : fieldFamily m = 0xF#4)
    (hk : fieldKk m = kk) (decoded : ∀ w, fieldKk w = kk → decodeFamilyF w = f w) : RowDecodes 0xF0FF m f := by
  intro w row
  obtain ⟨family, low⟩ := fieldFamily_fieldKk_of_row row
  exact (decodeWord_of_familyF (family.trans hf)).trans (decoded w (low.trans hk))

theorem addI_rowDecodes : RowDecodes 0xF0FF 0xF01E (fun w => .addI (fieldX w)) :=
  familyF_rowDecodes (kk := 0x1E#8) rfl rfl fun w hk => by simp [decodeFamilyF, hk]

theorem ldF_rowDecodes : RowDecodes 0xF0FF 0xF029 (fun w => .ldF (fieldX w)) :=
  familyF_rowDecodes (kk := 0x29#8) rfl rfl fun w hk => by simp [decodeFamilyF, hk]

end Sys2Proof.Machine
end

section
/-! PROOF. The instructions that write I alone (R220 to R222): the value they give it as a number. -/
namespace Sys2Proof.Machine

theorem exec_ldI (nnn : Addr12) (s : State) : exec (.ldI nnn) s = .next (s.setI (zextNnn nnn)) := rfl

theorem exec_addI (x : Reg) (s : State) : exec (.addI x) s = .next (s.setI (s.i + zextByte (s.readV x))) := rfl

theorem exec_ldF (x : Reg) (s : State) : exec (.ldF x) s = .next (s.setI (glyphAddr (s.readV x))) := rfl

/-- A byte added to I reduces modulo 65536 (D11). -/
theorem State.i_add_zextByte_toNat (s : State) (b : Byte) :
    (s.i + zextByte b).toNat = (s.i.toNat + b.toNat) % 65536 := by
  rw [BitVec.toNat_add, zextByte_toNat]

/-- Five times a byte fits I, so no glyph address wraps, also that of a value above 15 (D12). -/
theorem glyphAddr_toNat (b : Byte) : (glyphAddr b).toNat = b.toNat * 5 := by
  have bound : b.toNat * 5 < 65536 := by bv_omega
  rw [glyphAddr, BitVec.toNat_mul, zextByte_toNat]
  exact Nat.mod_eq_of_lt bound

/-- Settles O26: the row decodes by its family, and I takes the zero-extended address. -/
theorem loadAddressSetsI : Obligations.LoadAddressSetsI := by
  unfold Obligations.LoadAddressSetsI
  exact ⟨ldI_rowDecodes, fun s nnn => ⟨_, exec_ldI nnn s, rfl, zextNnn_toNat nnn⟩⟩

/-- Settles O27: the rows decode by their family and `kk`, and each instruction writes I alone, the sum modulo 65536 or
the product that does not wrap. -/
theorem addToIAndGlyphAddress : Obligations.AddToIAndGlyphAddress := by
  unfold Obligations.AddToIAndGlyphAddress
  exact ⟨addI_rowDecodes, ldF_rowDecodes, fun s x =>
    ⟨_, _, exec_addI x s, exec_ldF x s, rfl, rfl, s.i_add_zextByte_toNat (s.readV x), glyphAddr_toNat (s.readV x)⟩⟩

end Sys2Proof.Machine
end

section
/-! PROOF. Clearing the screen (R251): the blank grid, handed to the Display Sink (R255, D20). -/
namespace Sys2Proof.Machine

theorem exec_cls (s : State) : exec .cls s = .next ((s.setFb blankFrame).emit (.display blankFrame)) := rfl

/-- Settles O33: the word decodes, and the cleared state holds the blank grid and one more event with that grid. -/
theorem clearTurnsEveryPixelOff : Obligations.ClearTurnsEveryPixelOff := by
  unfold Obligations.ClearTurnsEveryPixelOff
  exact ⟨by decide, fun s => ⟨_, exec_cls s, rfl, pixel_blankFrame, State.emit_events _ _⟩⟩

end Sys2Proof.Machine
end

section
/-! PROOF. The row of a key skip or a timer instruction decodes to it (R100): family E picks its row by `kk`, as family F
does. -/
namespace Sys2Proof

theorem decodeWord_of_familyE {w : Word} (hf : fieldFamily w = 0xE#4) : decodeWord w = decodeFamilyE w := by
  simp [decodeWord, hf]

end Sys2Proof

namespace Sys2Proof.Machine

/-- A row of family E decodes to what the family's decoder answers for the row's `kk`. -/
theorem familyE_rowDecodes {m : Word} {kk : Byte} {f : Word → Instr} (hf : fieldFamily m = 0xE#4)
    (hk : fieldKk m = kk) (decoded : ∀ w, fieldKk w = kk → decodeFamilyE w = f w) : RowDecodes 0xF0FF m f := by
  intro w row
  obtain ⟨family, low⟩ := fieldFamily_fieldKk_of_row row
  exact (decodeWord_of_familyE (family.trans hf)).trans (decoded w (low.trans hk))

theorem skp_rowDecodes : RowDecodes 0xF0FF 0xE09E (fun w => .skp (fieldX w)) :=
  familyE_rowDecodes (kk := 0x9E#8) rfl rfl fun w hk => by simp [decodeFamilyE, hk]

theorem sknp_rowDecodes : RowDecodes 0xF0FF 0xE0A1 (fun w => .sknp (fieldX w)) :=
  familyE_rowDecodes (kk := 0xA1#8) rfl rfl fun w hk => by simp [decodeFamilyE, hk]

theorem ldVxDt_rowDecodes : RowDecodes 0xF0FF 0xF007 (fun w => .ldVxDt (fieldX w)) :=
  familyF_rowDecodes (kk := 0x07#8) rfl rfl fun w hk => by simp [decodeFamilyF, hk]

theorem ldDt_rowDecodes : RowDecodes 0xF0FF 0xF015 (fun w => .ldDt (fieldX w)) :=
  familyF_rowDecodes (kk := 0x15#8) rfl rfl fun w hk => by simp [decodeFamilyF, hk]

theorem ldSt_rowDecodes : RowDecodes 0xF0FF 0xF018 (fun w => .ldSt (fieldX w)) :=
  familyF_rowDecodes (kk := 0x18#8) rfl rfl fun w hk => by simp [decodeFamilyF, hk]

end Sys2Proof.Machine
end

section
/-! PROOF. The key skips (R270, R271): a skip's condition as the state of the key that Vx names, if it names one (D15). -/
namespace Sys2Proof.Machine

theorem exec_skp (x : Reg) (s : State) : exec (.skp x) s = .next (s.skipIf (s.keyDown (s.readV x))) := rfl

theorem exec_sknp (x : Reg) (s : State) : exec (.sknp x) s = .next (s.skipIf (!s.keyDown (s.readV x))) := rfl

theorem State.skipIf_pc (s : State) (c : Bool) : (s.skipIf c).pc = if c then s.pc + 2#16 else s.pc := by
  rw [State.skipIf_eq]

theorem State.skipIf_frame (s : State) (c : Bool) : s.skipIf c = { s with pc := (s.skipIf c).pc } := by
  rw [State.skipIf_eq]

theorem State.keyDown_of_key {s : State} {b : Byte} {k : Key} (named : b.toNat = k.val) :
    s.keyDown b = s.keys[k.val] := by
  simp only [State.keyDown, named, k.isLt, dite_true]

/-- A byte whose key is up, or that names no key (D15). -/
theorem State.keyDown_of_no_key_down {s : State} {b : Byte}
    (up : ∀ k : Key, b.toNat = k.val → s.keys[k.val] = false) : s.keyDown b = false := by
  by_cases key : b.toNat < 16
  · exact (State.keyDown_of_key (k := ⟨b.toNat, key⟩) rfl).trans (up ⟨b.toNat, key⟩ rfl)
  · exact dif_neg key

/-- Settles O18: the two skips have opposite conditions, and Vx decides them by the key it names. -/
theorem keySkips : Obligations.KeySkips := by
  unfold Obligations.KeySkips
  refine ⟨skp_rowDecodes, sknp_rowDecodes, fun s x =>
    ⟨_, _, exec_skp x s, exec_sknp x s, s.skipIf_frame _, s.skipIf_frame _, ?_, fun up => ?_⟩⟩
  · rintro ⟨k, named, down⟩
    have keyDown := (State.keyDown_of_key named).trans down
    simp [State.skipIf_pc, keyDown]
  · have keyUp := State.keyDown_of_no_key_down up
    simp [State.skipIf_pc, keyUp]

end Sys2Proof.Machine
end

section
/-! PROOF. The timer instructions (R272 to R274): the registers and timers they write, and the tone edge that a write to ST
makes (D19). -/
namespace Sys2Proof.Machine

theorem exec_ldVxDt (x : Reg) (s : State) : exec (.ldVxDt x) s = .next (s.writeV x s.dt) := rfl

theorem exec_ldDt (x : Reg) (s : State) : exec (.ldDt x) s = .next (s.setDt (s.readV x)) := rfl

theorem exec_ldSt (x : Reg) (s : State) : exec (.ldSt x) s = .next (s.writeSt (s.readV x)) := rfl

/-- The tone edge of two timer values as numbers (R288). -/
theorem toneEdge_toNat (a b : Byte) : toneEdge a b =
    if a.toNat = 0 ∧ b.toNat ≠ 0 then [.toneStart] else if a.toNat ≠ 0 ∧ b.toNat = 0 then [.toneStop] else [] := by
  have zero_iff (c : Byte) : c = 0#8 ↔ c.toNat = 0 := BitVec.toNat_inj.symm
  simp only [toneEdge, ne_eq, zero_iff]

theorem toneEdge_start {a b : Byte} (off : a.toNat = 0) (on : b.toNat ≠ 0) : toneEdge a b = [.toneStart] := by
  rw [toneEdge_toNat, if_pos ⟨off, on⟩]

theorem toneEdge_stop {a b : Byte} (on : a.toNat ≠ 0) (off : b.toNat = 0) : toneEdge a b = [.toneStop] := by
  rw [toneEdge_toNat, if_neg fun start => on start.1, if_pos ⟨on, off⟩]

theorem toneEdge_none {a b : Byte} (same : a.toNat = 0 ↔ b.toNat = 0) : toneEdge a b = [] := by
  rw [toneEdge_toNat, if_neg fun start => start.2 (same.mp start.1), if_neg fun stop => stop.1 (same.mpr stop.2)]

/-- Settles O36: Fx15 writes DT alone, and Vx is the one register that Fx07 writes. -/
theorem delayTimerReadAndWrite : Obligations.DelayTimerReadAndWrite := by
  unfold Obligations.DelayTimerReadAndWrite
  exact ⟨ldVxDt_rowDecodes, ldDt_rowDecodes, fun s x =>
    ⟨exec_ldDt x s, _, exec_ldVxDt x s, rfl, fun r => s.readV_writeV x r s.dt⟩⟩

/-- Settles O37: a write to ST appends its tone edge to the trace, and the edge is decided by which of the old and the new
value is zero. -/
theorem soundTimerWriteEmitsTheEdge : Obligations.SoundTimerWriteEmitsTheEdge := by
  unfold Obligations.SoundTimerWriteEmitsTheEdge
  refine ⟨ldSt_rowDecodes, fun s x => ?_⟩
  rw [exec_ldSt, State.writeSt_eq]
  refine ⟨_, rfl, rfl, fun off on => ?_, fun on off => ?_, fun same => ?_⟩
  · rw [toneEdge_start off on]
  · rw [toneEdge_stop on off]
  · rw [toneEdge_none same, List.append_nil]

end Sys2Proof.Machine
end

section
/-! PROOF. The key events (R276, R278, R279): their steps as equations, in every lifecycle state (D35), and the one key
that each changes. -/
namespace Sys2Proof.Machine

theorem keyPress_key (k : Key) (s : State) :
    keyPress k.val s = .next (((s.setKey k true).setLastKey (some k)).endWait k) :=
  dif_pos k.isLt

theorem keyRelease_key (k : Key) (s : State) : keyRelease k.val s = .next (s.setKey k false) :=
  dif_pos k.isLt

theorem step_of_keyPress {s : State} {k : Key} {rest : List Turn} (h : s.schedule = .host (.keyPress k.val) :: rest) :
    step s = .next ((((s.setSchedule rest).setKey k true).setLastKey (some k)).endWait k) :=
  (step_of_schedule_cons h).trans (keyPress_key k _)

theorem step_of_keyRelease {s : State} {k : Key} {rest : List Turn}
    (h : s.schedule = .host (.keyRelease k.val) :: rest) : step s = .next ((s.setSchedule rest).setKey k false) :=
  (step_of_schedule_cons h).trans (keyRelease_key k _)

/-- A key as marked, every other as before. -/
theorem State.setKey_key (s : State) (k j : Key) (down : Bool) :
    (s.setKey k down).keys[j.val] = if j = k then down else s.keys[j.val] := by
  simp only [State.setKey_keys, Vector.getElem_set, Fin.ext_iff, eq_comm]

/-- A key code fits a register. -/
theorem keyByte_toNat (k : Key) : (BitVec.ofNat 8 k.val).toNat = k.val :=
  (BitVec.toNat_ofNat k.val 8).trans (Nat.mod_eq_of_lt (by omega))

/-- The wait is no register. -/
@[simp] theorem State.readV_setWait (s : State) (w : Option Reg) (r : Reg) : (s.setWait w).readV r = s.readV r := rfl

/-- Settles O39: the press is recorded in either case; a wait, which only Running has, ends with the code in its register,
and without one nothing more happens. -/
theorem keyPressIsRecordedAndEndsTheWait : Obligations.KeyPressIsRecordedAndEndsTheWait := by
  unfold Obligations.KeyPressIsRecordedAndEndsTheWait
  intro s k rest turn
  rw [step_of_keyPress turn]
  obtain ⟨x, running, waiting, ended⟩ | ⟨idle, unchanged⟩ :=
    State.endWait_cases (((s.setSchedule rest).setKey k true).setLastKey (some k)) k
  · rw [ended]
    refine ⟨_, rfl, rfl, fun j => s.setKey_key k j true, fun y _ waitingY => ⟨rfl, fun r => ?_⟩, ?_⟩
    · obtain rfl : x = y := Option.some.inj (waiting.symm.trans waitingY)
      rw [State.readV_setWait, State.readV_writeV_toNat, keyByte_toNat]
      rfl
    · rintro (notRunning | notWaiting)
      · exact absurd running notRunning
      · exact absurd (waiting.symm.trans notWaiting) (Option.some_ne_none x)
  · rw [unchanged]
    refine ⟨_, rfl, rfl, fun j => s.setKey_key k j true, fun x running waiting => ?_, fun _ => ⟨rfl, rfl⟩⟩
    exact absurd ⟨running, ne_of_eq_of_ne waiting (Option.some_ne_none x)⟩ idle

/-- Settles O40: the step marks the key as up and does nothing else. -/
theorem keyReleaseOnlyClearsTheKey : Obligations.KeyReleaseOnlyClearsTheKey := by
  unfold Obligations.KeyReleaseOnlyClearsTheKey
  exact fun s k rest turn => ⟨_, step_of_keyRelease turn, rfl, fun j => s.setKey_key k j false⟩

end Sys2Proof.Machine
end

section
/-! PROOF. The tick (R282 to R284, R287): both timers in one step while Running (D45), no step elsewhere (D18), and the one
tone edge that a decrement makes. -/
namespace Sys2Proof.Machine

theorem tickTurn_running {s : State} (h : s.life = .running) : tickTurn s = .next s.tickTimers := by
  simp only [tickTurn, h]

theorem tickTurn_of_not_running {s : State} (h : s.life ≠ .running) : tickTurn s = .refused .tickOutsideRunning := by
  unfold tickTurn
  split
  next running => exact absurd running h
  next => rfl
  next => rfl

theorem step_of_tick {s : State} {rest : List Turn} (h : s.schedule = .tick :: rest) :
    step s = tickTurn (s.setSchedule rest) :=
  step_of_schedule_cons h

/-- A decrement stops the tone from 1, and is no edge from any other value (R284). -/
theorem toneEdge_decrement (b : Byte) : toneEdge b (decrement b) = if b.toNat = 1 then [.toneStop] else [] := by
  split_ifs with one
  · exact toneEdge_stop (by omega) (by rw [decrement_toNat]; omega)
  · exact toneEdge_none (by rw [decrement_toNat]; omega)

/-- Settles O42: while Running the tick decrements both timers and appends ST's edge to the trace. -/
theorem tickLowersBothTimers : Obligations.TickLowersBothTimers := by
  unfold Obligations.TickLowersBothTimers
  refine fun s rest turn => ⟨fun running => ?_, fun outside => ?_⟩
  · rw [step_of_tick turn, tickTurn_running (s := s.setSchedule rest) running, State.tickTimers_eq]
    refine ⟨_, rfl, rfl, decrement_toNat s.dt, decrement_toNat s.st, ?_⟩
    calc s.events ++ toneEdge s.st (decrement s.st)
        = s.events ++ if s.st.toNat = 1 then [.toneStop] else [] := by rw [toneEdge_decrement]
      _ = if s.st.toNat = 1 then s.events ++ [.toneStop] else s.events := by
          rw [apply_ite (s.events ++ ·), List.append_nil]
  · rw [step_of_tick turn]
    exact tickTurn_of_not_running (s := s.setSchedule rest) outside

end Sys2Proof.Machine
end

section
/-! PROOF. The round trip between instructions and words (R93, R100, R128): the well-formed instructions are those that
the decoder gives back from their word. -/
namespace Sys2Proof

theorem decodeWord_of_family0 {w : Word} (hf : fieldFamily w = 0x0#4) : decodeWord w = decodeFamily0 w :=
  if_pos hf

theorem encodeNnn_inj {f : Nibble} {a b : Addr12} : encodeNnn f a = encodeNnn f b ↔ a = b :=
  ⟨fun h => by simpa using congrArg fieldNnn h, congrArg _⟩

/-- A listed instruction's word holds the selecting value that the decoder compares with. A no-op's word holds its own,
and passes every comparison of its family exactly when it is none of the listed values (R102). -/
theorem decodeWord_encodeWord_iff (i : Instr) : decodeWord (encodeWord i) = i ↔ i.wellFormed = true := by
  cases i with
  | cls => decide
  | ret => decide
  | nop0 nnn =>
    have cls : encodeNnn 0x0#4 nnn = 0x00E0#16 ↔ nnn = 0x0E0#12 := encodeNnn_inj (b := 0x0E0#12)
    have ret : encodeNnn 0x0#4 nnn = 0x00EE#16 ↔ nnn = 0x0EE#12 := encodeNnn_inj (b := 0x0EE#12)
    simp [encodeWord, decodeWord_of_family0, decodeFamily0, ite_eq_iff, cls, ret, Instr.wellFormed]
  | nop5 x y n => simp [encodeWord, decodeWord_of_family5, decodeFamily5, Instr.wellFormed]
  | nop8 x y n => simp [encodeWord, decodeWord_of_family8, decodeFamily8, ite_eq_iff, Instr.wellFormed, listedN8]
  | nop9 x y n => simp [encodeWord, decodeWord_of_family9, decodeFamily9, Instr.wellFormed]
  | nopE x kk => simp [encodeWord, decodeWord_of_familyE, decodeFamilyE, ite_eq_iff, Instr.wellFormed, listedKkE]
  | nopF x kk => simp [encodeWord, decodeWord_of_familyF, decodeFamilyF, ite_eq_iff, Instr.wellFormed, listedKkF]
  | _ =>
    simp [encodeWord, decodeWord, decodeFamily5, decodeFamily8, decodeFamily9, decodeFamilyE, decodeFamilyF,
      Instr.wellFormed]

theorem decode_encode_append (i : Instr) (rest : List Byte) :
    decode (encode i ++ rest) = .ok (decodeWord (encodeWord i), rest) := by
  simp [encode, decode]

/-- Settles O3: the two bytes are the word again, and the word of a well-formed instruction decodes to it. -/
theorem decodeOfEncodeIsTheInstruction : Obligations.DecodeOfEncodeIsTheInstruction := by
  unfold Obligations.DecodeOfEncodeIsTheInstruction
  intro i rest wf
  rw [decode_encode_append, (decodeWord_encodeWord_iff i).mpr wf]

/-- Settles O4: no bit is dropped, so what a word decodes to is given back from its word and is well formed. -/
theorem encodeOfDecodeIsTheWord : Obligations.EncodeOfDecodeIsTheWord := by
  unfold Obligations.EncodeOfDecodeIsTheWord
  intro w
  have kept := encodeWord_decodeWord w
  exact ⟨(decodeWord_encodeWord_iff _).mp (congrArg decodeWord kept), kept⟩

/-- Settles O1: each word's family and selecting value are compared with constants. -/
theorem wordsOfEveryFamilyDecode : Obligations.WordsOfEveryFamilyDecode := by
  unfold Obligations.WordsOfEveryFamilyDecode
  decide

end Sys2Proof
end

section
/-! PROOF. Assembly lines (R105, R106): every line assembles back, and a no-op word has the line `.word`. -/
namespace Sys2Proof

theorem assemble_line (i : Instr) : i.line.assemble = some (encodeWord i) := by
  cases i <;> rfl

theorem line_of_isNoOp {i : Instr} (h : i.isNoOp = true) : i.line = .word (encodeWord i) := by
  cases i with
  | nop0 | nop5 | nop8 | nop9 | nopE | nopF => rfl
  | _ => exact absurd h Bool.false_ne_true

/-- Settles O56: each row's operands assemble to its instruction, and an unlisted word decodes to a no-op, whose word is
the one decoded. -/
theorem everyLineAssemblesToItsWord : Obligations.EveryLineAssemblesToItsWord := by
  unfold Obligations.EveryLineAssemblesToItsWord
  refine ⟨assemble_line, fun w unlisted => ?_, fun x => ⟨rfl, rfl⟩⟩
  rw [line_of_isNoOp (Machine.isNoOp_decodeWord_of_unlisted unlisted), encodeWord_decodeWord]

/-- Settles O57: `y` is a field of the format that both shifts have, and neither meaning has it among its operands. -/
theorem shiftsEncodeYAndDoNotReadIt : Obligations.ShiftsEncodeYAndDoNotReadIt := by
  unfold Obligations.ShiftsEncodeYAndDoNotReadIt
  refine ⟨fun x y => ⟨fieldY_xyn _ x y _, fieldY_xyn _ x y _⟩, fun s x y z => ⟨?_, ?_⟩⟩
  · rw [Machine.exec_shr, Machine.exec_shr]
  · rw [Machine.exec_shl, Machine.exec_shl]

end Sys2Proof
end

section
/-! PROOF. The instructions that access memory through I, Dxyn and Fx0A: their meanings as equations, and the row of each
decodes to it (R100). -/
namespace Sys2Proof

theorem decodeWord_of_familyD {w : Word} (hf : fieldFamily w = 0xD#4) :
    decodeWord w = .drw (fieldX w) (fieldY w) (fieldN w) := by
  simp [decodeWord, hf]

end Sys2Proof

namespace Sys2Proof.Machine

theorem exec_ldB (x : Reg) (s : State) : exec (.ldB x) s =
    withAccess (.ldB x) s.addrI 3 s (s.setMem (Memory.storeBytes s.mem s.addrI (bcdDigits (s.readV x)))) := rfl

theorem exec_ldMemVx (x : Reg) (s : State) : exec (.ldMemVx x) s =
    withAccess (.ldMemVx x) s.addrI (x.val + 1) s
      ((s.setMem (Memory.storeBytes s.mem s.addrI (s.regsUpTo x))).setI (s.i + advance x)) := rfl

theorem exec_ldVxMem (x : Reg) (s : State) : exec (.ldVxMem x) s =
    withAccess (.ldVxMem x) s.addrI (x.val + 1) s
      ((s.setV (writeRegs s.v 0 (Memory.readBytes s.mem s.addrI (x.val + 1)))).setI (s.i + advance x)) := rfl

theorem exec_drw (x y : Reg) (n : Nibble) (s : State) :
    exec (.drw x y n) s = withAccess (.drw x y n) s.addrI n.toNat s (s.drawSprite x y n) := rfl

theorem exec_ldVxK (x : Reg) (s : State) : exec (.ldVxK x) s = .next (s.setWait (some x)) := rfl

theorem drw_rowDecodes : RowDecodes 0xF000 0xD000 (fun w => .drw (fieldX w) (fieldY w) (fieldN w)) :=
  fun _ row => decodeWord_of_familyD (fieldFamily_of_row row)

theorem ldVxK_rowDecodes : RowDecodes 0xF0FF 0xF00A (fun w => .ldVxK (fieldX w)) :=
  familyF_rowDecodes (kk := 0x0A#8) rfl rfl fun w hk => by simp [decodeFamilyF, hk]

theorem ldB_rowDecodes : RowDecodes 0xF0FF 0xF033 (fun w => .ldB (fieldX w)) :=
  familyF_rowDecodes (kk := 0x33#8) rfl rfl fun w hk => by simp [decodeFamilyF, hk]

theorem ldMemVx_rowDecodes : RowDecodes 0xF0FF 0xF055 (fun w => .ldMemVx (fieldX w)) :=
  familyF_rowDecodes (kk := 0x55#8) rfl rfl fun w hk => by simp [decodeFamilyF, hk]

theorem ldVxMem_rowDecodes : RowDecodes 0xF0FF 0xF065 (fun w => .ldVxMem (fieldX w)) :=
  familyF_rowDecodes (kk := 0x65#8) rfl rfl fun w hk => by simp [decodeFamilyF, hk]

/-- V0 to Vx as loaded from I upward, every other register as before (R225). -/
theorem State.loadRegs_getElem (s : State) (x r : Reg) :
    (writeRegs s.v 0 (Memory.readBytes s.mem s.addrI (x.val + 1)))[r.val] =
      if r.val ≤ x.val then Memory.read s.mem (s.i.toNat + r.val) else s.readV r := by
  rw [writeRegs_getElem _ _ _ (by simp) r.val r.isLt, Memory.readBytes_length]
  by_cases loaded : r.val ≤ x.val
  · rw [if_pos (by omega), if_pos loaded, Memory.readBytes_getD _ _ _ _ (by omega), Nat.sub_zero, State.addrI]
  · rw [if_neg (by omega), if_neg loaded, State.readV]

/-- I in range rises past the bytes accessed without wrapping (D10). -/
theorem State.i_add_advance_toNat {s : State} {x : Reg} (inside : s.i.toNat + x.val < 4096) :
    (s.i + advance x).toNat = s.i.toNat + x.val + 1 := by
  rw [advance, BitVec.toNat_add, BitVec.toNat_ofNat]
  omega

end Sys2Proof.Machine
end

section
/-! PROOF. The stores and loads through I (R223 to R225): in range they have their effect, out of range they fault before
any (R64, D4, D22, D41). -/
namespace Sys2Proof.Machine

theorem exec_ldB_inside {s : State} {x : Reg} (inside : s.i.toNat + 2 < 4096) : exec (.ldB x) s =
    .next (s.setMem (Memory.storeBytes s.mem s.addrI (bcdDigits (s.readV x)))) :=
  withAccess_inside (.inr inside)

theorem exec_ldMemVx_inside {s : State} {x : Reg} (inside : s.i.toNat + x.val < 4096) : exec (.ldMemVx x) s =
    .next ((s.setMem (Memory.storeBytes s.mem s.addrI (s.regsUpTo x))).setI (s.i + advance x)) :=
  withAccess_inside (.inr inside)

theorem exec_ldVxMem_inside {s : State} {x : Reg} (inside : s.i.toNat + x.val < 4096) : exec (.ldVxMem x) s =
    .next ((s.setV (writeRegs s.v 0 (Memory.readBytes s.mem s.addrI (x.val + 1)))).setI (s.i + advance x)) :=
  withAccess_inside (.inr inside)

/-- A decimal digit fits a byte. -/
theorem byte_ofNat_toNat {n : Nat} (h : n < 256) : (BitVec.ofNat 8 n).toNat = n := by
  rw [BitVec.toNat_ofNat, Nat.mod_eq_of_lt h]

/-- Settles O28: memory after the store is `byteAfterDigits`, read at the three addresses and at any other. -/
theorem bcdStoresThreeDigits : Obligations.BcdStoresThreeDigits := by
  unfold Obligations.BcdStoresThreeDigits
  refine ⟨ldB_rowDecodes, fun s x canonical inside => ⟨_, exec_ldB_inside inside, rfl, ?_⟩⟩
  have bound := (s.readV x).isLt
  simp only [State.setMem_mem, State.read_storeDigits canonical inside, State.byteAfterDigits, ↓reduceIte]
  refine ⟨?_, ?_, ?_, fun a other => ?_⟩
  · exact byte_ofNat_toNat (by omega)
  · rw [if_neg (by omega), byte_ofNat_toNat (by omega)]
  · rw [if_neg (by omega), if_neg (by omega), byte_ofNat_toNat (by omega)]
  · rw [if_neg (by omega), if_neg (by omega), if_neg (by omega)]

/-- Settles O29: memory after the store is `byteAfterStore`, read at the address of each register and at any other. -/
theorem storeRegistersAdvancesI : Obligations.StoreRegistersAdvancesI := by
  unfold Obligations.StoreRegistersAdvancesI
  refine ⟨ldMemVx_rowDecodes, fun s x canonical inside => ⟨_, exec_ldMemVx_inside inside, rfl,
    State.i_add_advance_toNat inside, fun r stored => ?_, fun a other => ?_⟩⟩
  · rw [State.setI_mem, State.setMem_mem, State.read_storeRegs canonical inside, State.byteAfterStore,
      dif_pos (by omega)]
    simp only [Nat.add_sub_cancel_left]
  · rw [State.setI_mem, State.setMem_mem, State.read_storeRegs canonical inside, State.byteAfterStore,
      dif_neg (by omega)]

/-- Settles O30: the register file after the load, read register by register. -/
theorem loadRegistersAdvancesI : Obligations.LoadRegistersAdvancesI := by
  unfold Obligations.LoadRegistersAdvancesI
  exact ⟨ldVxMem_rowDecodes, fun s x inside => ⟨_, exec_ldVxMem_inside inside, rfl,
    State.i_add_advance_toNat inside, s.loadRegs_getElem x⟩⟩

/-- Settles O31: the range check answers the fault in place of the effect. -/
theorem outOfRangeAccessFaults : Obligations.OutOfRangeAccessFaults := by
  unfold Obligations.OutOfRangeAccessFaults
  intro s x y n
  refine ⟨fun outside => ?_, fun outside => ?_, fun outside => ?_, fun rows outside => ?_⟩
  · rw [exec_ldB, withAccess_outside (by omega) (by rw [State.addrI]; omega), raiseFault_eq]
  · rw [exec_ldMemVx, withAccess_outside (by omega) (by rw [State.addrI]; omega), raiseFault_eq]
  · rw [exec_ldVxMem, withAccess_outside (by omega) (by rw [State.addrI]; omega), raiseFault_eq]
  · rw [exec_drw, withAccess_outside (by omega) (by rw [State.addrI]; omega), raiseFault_eq]

/-- The step of a ready loop with nothing scheduled, PC in range, runs the word that memory reads as (R121). -/
theorem step_of_ready_unscheduled {s : State} {byte : Nat → Byte} (ready : s.LoopReady)
    (unscheduled : s.schedule = []) (fetchable : s.pc.toNat < 4095) (reads : ∀ a, Memory.read s.mem a = byte a) :
    step s = exec (decodeWord (wordOfBytes (byte s.pc.toNat) (byte (s.pc.toNat + 1))))
      { s with pc := s.pc + 2#16 } := by
  rw [step_of_schedule_nil unscheduled, loopTurn_ready ready, cycle_of_pc_inside fetchable, Memory.readWord, reads, reads,
    State.setPc]

/-- Settles O32: the store leaves PC, LIFE, WAIT and the schedule, so the next step fetches at the same PC from the memory
that it left. -/
theorem storedBytesAreFetchedNext : Obligations.StoredBytesAreFetchedNext := by
  unfold Obligations.StoredBytesAreFetchedNext
  intro s x ready unscheduled canonical fetchable
  refine ⟨fun inside => ⟨_, exec_ldMemVx_inside inside, ?_⟩, fun inside => ⟨_, exec_ldB_inside inside, ?_⟩⟩
  · exact step_of_ready_unscheduled ready unscheduled fetchable (State.read_storeRegs canonical inside)
  · exact step_of_ready_unscheduled ready unscheduled fetchable (State.read_storeDigits canonical inside)

end Sys2Proof.Machine
end

section
/-! PROOF. Dxyn (R252 to R255): the sprite's rows are the bytes at I, so the pixels that the draw inverts are those that
`SpriteBit` names; and the draw is its own inverse on the grid. -/
namespace Sys2Proof.Machine

/-- The grid and the collision of a draw (R252). -/
def State.drawn (s : State) (x y : Reg) (n : Nibble) : FrameBuffer × Bool :=
  drawRows (s.readV x).toNat (s.readV y).toNat (s.fb, false) (s.spriteRows n)

theorem State.drawSprite_eq (s : State) (x y : Reg) (n : Nibble) : s.drawSprite x y n =
    ((s.setFb (s.drawn x y n).1).writeV regF (flagByte (s.drawn x y n).2)).emit (.display (s.drawn x y n).1) := rfl

/-- VF takes the collision, and every other register is kept. -/
theorem State.readV_drawSprite (s : State) (x y r : Reg) (n : Nibble) :
    (s.drawSprite x y n).readV r = if r = 15 then flagByte (s.drawn x y n).2 else s.readV r := by
  rw [State.drawSprite_eq]
  exact State.readV_writeV _ regF r _

theorem exec_drw_inside {s : State} {x y : Reg} {n : Nibble} (inside : n.toNat = 0 ∨ s.i.toNat + n.toNat - 1 < 4096) :
    exec (.drw x y n) s = .next (s.drawSprite x y n) :=
  withAccess_inside (by rw [State.addrI]; omega)

/-- Row `k` of the sprite is the byte at I + `k`. -/
theorem State.spriteHits_iff (s : State) (x y : Reg) (n : Nibble) (c : Fin 64) (r : Fin 32) :
    SpriteHits (s.readV x).toNat (s.readV y).toNat (s.spriteRows n) c r ↔ SpriteBit s x y n c r := by
  have length : (s.spriteRows n).length = n.toNat := Memory.readBytes_length _ _ _
  have row (k : Nat) (hk : k < n.toNat) : (s.spriteRows n).getD k 0#8 = Memory.read s.mem (s.i.toNat + k) :=
    Memory.readBytes_getD _ _ _ _ hk
  constructor
  · rintro ⟨k, hk, onRow, j, hj, bit, onColumn⟩
    rw [length] at hk
    exact ⟨k, hk, j, hj, row k hk ▸ bit, congrArg Fin.val onColumn, congrArg Fin.val onRow⟩
  · rintro ⟨k, hk, j, hj, bit, onColumn, onRow⟩
    exact ⟨k, length.symm ▸ hk, Fin.ext onRow, j, hj, (row k hk).symm ▸ bit, Fin.ext onColumn⟩

theorem State.spriteRows_length_le (s : State) (n : Nibble) : (s.spriteRows n).length ≤ 32 := by
  have := n.isLt
  rw [State.spriteRows, Memory.readBytes_length]
  omega

theorem State.pixel_drawn (s : State) (x y : Reg) (n : Nibble) (c : Fin 64) (r : Fin 32) :
    pixel (s.drawn x y n).1 c r = (pixel s.fb c r ^^ decide (SpriteBit s x y n c r)) := by
  rw [State.drawn, (drawRows_spec _ _ _ _ (s.spriteRows_length_le n)).1]
  simp only [State.spriteHits_iff]

theorem State.drawn_collision (s : State) (x y : Reg) (n : Nibble) :
    (s.drawn x y n).2 = decide (∃ c r, SpriteBit s x y n c r ∧ pixel s.fb c r = true) := by
  rw [State.drawn, (drawRows_spec _ _ _ _ (s.spriteRows_length_le n)).2]
  simp only [State.spriteHits_iff, Bool.false_or]

theorem flagByte_decide_eq_one_iff (p : Prop) [Decidable p] : flagByte (decide p) = 1#8 ↔ p := by
  by_cases h : p <;> simp [flagByte, h]

theorem flagByte_decide_of_not {p : Prop} [Decidable p] (h : ¬ p) : flagByte (decide p) = 0#8 := by
  simp [flagByte, h]

/-- VF after a draw. -/
theorem State.readV_regF_drawSprite (s : State) (x y : Reg) (n : Nibble) :
    (s.drawSprite x y n).readV 15 = flagByte (decide (∃ c r, SpriteBit s x y n c r ∧ pixel s.fb c r = true)) := by
  rw [State.readV_drawSprite, if_pos rfl, State.drawn_collision]

/-- Settles O34: the grid and the collision that the sprite rules give, read at the sprite's pixels and elsewhere. -/
theorem drawInvertsTheSpritePixels : Obligations.DrawInvertsTheSpritePixels := by
  unfold Obligations.DrawInvertsTheSpritePixels
  refine ⟨drw_rowDecodes, fun s x y n inside => ⟨_, exec_drw_inside inside, rfl, fun c r hit => ?_, fun c r miss => ?_,
    fun collides => ?_, fun clear => ?_, fun r other => ?_, rfl⟩⟩
  · exact (s.pixel_drawn x y n c r).trans (by rw [decide_eq_true hit, Bool.xor_true])
  · exact (s.pixel_drawn x y n c r).trans (by rw [decide_eq_false miss, Bool.xor_false])
  · rw [State.readV_regF_drawSprite, flagByte_decide_eq_one_iff]
    exact collides
  · rw [State.readV_regF_drawSprite]
    refine flagByte_decide_of_not ?_
    rintro ⟨c, r, hit, on⟩
    exact Bool.false_ne_true ((clear c r hit).symm.trans on)
  · rw [State.readV_drawSprite, if_neg other]

/-- A draw whose coordinates are not in VF leaves the sprite where it was. -/
theorem State.spriteBit_drawSprite {x y : Reg} (hx : x ≠ 15) (hy : y ≠ 15) (s : State) (n : Nibble) (c : Fin 64)
    (r : Fin 32) : SpriteBit (s.drawSprite x y n) x y n c r ↔ SpriteBit s x y n c r := by
  simp only [SpriteBit, State.readV_drawSprite, if_neg hx, if_neg hy]
  rfl

/-- Settles O35: the second draw has the same sprite, so it inverts the same pixels back, and its collision is with the
pixels that the first one turned on. -/
theorem drawingTwiceRestoresTheGrid : Obligations.DrawingTwiceRestoresTheGrid := by
  unfold Obligations.DrawingTwiceRestoresTheGrid
  intro s x y n hx hy inside
  refine ⟨_, _, exec_drw_inside inside, exec_drw_inside (s := s.drawSprite x y n) inside, frame_ext fun c r => ?_, ?_⟩
  · calc pixel ((s.drawSprite x y n).drawn x y n).1 c r
        = (pixel (s.drawn x y n).1 c r ^^ decide (SpriteBit s x y n c r)) := by
          rw [State.pixel_drawn, decide_eq_decide.mpr (State.spriteBit_drawSprite hx hy s n c r)]
          rfl
      _ = pixel s.fb c r := by rw [State.pixel_drawn, Bool.xor_assoc, Bool.xor_self, Bool.xor_false]
  · rw [State.readV_regF_drawSprite, flagByte_decide_eq_one_iff]
    refine exists_congr fun c => exists_congr fun r => ?_
    rw [State.spriteBit_drawSprite hx hy]
    refine and_congr_right fun hit => ?_
    have inverted : pixel (s.drawSprite x y n).fb c r = !pixel s.fb c r :=
      (s.pixel_drawn x y n c r).trans (by rw [decide_eq_true hit, Bool.xor_true])
    rw [inverted, Bool.not_eq_true']

end Sys2Proof.Machine
end

section
/-! PROOF. Everything that an instruction can do (R124): the faults that it can raise, its effect when it raises none,
and the proof that there is nothing else. -/
namespace Sys2Proof.Machine

/-- The faults of the six instructions that can raise one, each with its condition (R304 to R306). -/
inductive Raises (s : State) : Instr → Cause → Prop
  | call (nnn : Addr12) (full : s.sp.toNat = 16) : Raises s (.call nnn) .stackOverflow
  | ret (empty : s.sp.toNat = 0) : Raises s .ret .stackUnderflow
  | ldB (x : Reg) (outside : 4096 < s.addrI + 3) : Raises s (.ldB x) .memoryFault
  | ldMemVx (x : Reg) (outside : 4096 < s.addrI + (x.val + 1)) : Raises s (.ldMemVx x) .memoryFault
  | ldVxMem (x : Reg) (outside : 4096 < s.addrI + (x.val + 1)) : Raises s (.ldVxMem x) .memoryFault
  | drw (x y : Reg) (n : Nibble) (outside : n.toNat ≠ 0 ∧ 4096 < s.addrI + n.toNat) :
      Raises s (.drw x y n) .memoryFault

/-- The six conditional skips (R154 to R157, R270, R271). -/
abbrev IsSkip (i : Instr) : Prop := ∃ x y kk, i = .seImm x kk ∨ i = .sneImm x kk ∨ i = .seReg x y ∨ i = .sneReg x y ∨
  i = .skp x ∨ i = .sknp x

/-- The three instructions that write I and nothing else (R220 to R222). -/
abbrev WritesOnlyI (i : Instr) : Prop := ∃ x nnn, i = .ldI nnn ∨ i = .addI x ∨ i = .ldF x

/-- `Effect s i t`: the instruction `i`, run in `s`, may leave `t`. The instructions that write one register, or a flag
and a register, or I, are told apart only by the value they write. -/
inductive Effect (s : State) : Instr → State → Prop
  | nothing {i : Instr} (noOp : i.isNoOp = true) : Effect s i s
  | fault {i : Instr} {c : Cause} (raised : Raises s i c) : Effect s i (s.halt c (s.pc - 2#16) (some (encodeWord i)))
  | skip {i : Instr} (skips : IsSkip i) (c : Bool) : Effect s i { s with pc := if c then s.pc + 2#16 else s.pc }
  | jp (nnn : Addr12) : Effect s (.jp nnn) (s.setPc (zextNnn nnn))
  | jpV0 (nnn : Addr12) : Effect s (.jpV0 nnn) (s.setPc (s.jumpSum nnn))
  | call (nnn : Addr12) (room : s.sp.toNat < 16) :
      Effect s (.call nnn) (((s.setSlot ⟨s.sp.toNat, room⟩ s.pc).setSp (s.sp + 1#8)).setPc (zextNnn nnn))
  | ret (j : Fin 16) (top : s.sp.toNat = j.val + 1) : Effect s .ret ((s.setSp (s.sp - 1#8)).setPc s.stack[j.val])
  | result {i : Instr} {x : Reg} (writes : ∀ r, writesV i r = (r == x)) (b : Byte) : Effect s i (s.writeV x b)
  | flagThenResult {i : Instr} {x : Reg} (writes : ∀ r, writesV i r = (r == x || r == 15)) (f b : Byte) :
      Effect s i (s.writeFlagThenResult x f b)
  | rnd (x : Reg) (kk : Byte) : Effect s (.rnd x kk) ((s.writeV x (Config.randByte s.draws &&& kk)).countDraw)
  | setI {i : Instr} (writes : WritesOnlyI i) (a : Word) : Effect s i (s.setI a)
  | ldB (x : Reg) (inside : s.addrI + 3 ≤ 4096) :
      Effect s (.ldB x) (s.setMem (Memory.storeBytes s.mem s.addrI (bcdDigits (s.readV x))))
  | ldMemVx (x : Reg) (inside : s.addrI + (x.val + 1) ≤ 4096) :
      Effect s (.ldMemVx x) ((s.setMem (Memory.storeBytes s.mem s.addrI (s.regsUpTo x))).setI (s.i + advance x))
  | ldVxMem (x : Reg) (inside : s.addrI + (x.val + 1) ≤ 4096) : Effect s (.ldVxMem x)
      ((s.setV (writeRegs s.v 0 (Memory.readBytes s.mem s.addrI (x.val + 1)))).setI (s.i + advance x))
  | cls : Effect s .cls ((s.setFb blankFrame).emit (.display blankFrame))
  | drw (x y : Reg) (n : Nibble) (inside : n.toNat = 0 ∨ s.addrI + n.toNat ≤ 4096) :
      Effect s (.drw x y n) (s.drawSprite x y n)
  | ldVxK (x : Reg) : Effect s (.ldVxK x) (s.setWait (some x))
  | ldDt (x : Reg) : Effect s (.ldDt x) (s.setDt (s.readV x))
  | ldSt (x : Reg) : Effect s (.ldSt x)
      { s with st := s.readV x, events := s.events ++ toneEdge s.st (s.readV x) }

/-- An instruction with one possible next state leaves that state. -/
theorem Effect.of_exec {i : Instr} {s t u : State} (run : exec i s = .next t) (runs : exec i s = .next u)
    (effect : Effect s i u) : Effect s i t :=
  Host.Outcome.next.inj (runs.symm.trans run) ▸ effect

theorem Effect.skipIf {i : Instr} (s : State) (skips : IsSkip i) (c : Bool) : Effect s i (s.skipIf c) :=
  s.skipIf_eq c ▸ .skip skips c

/-- Everything that an instruction can do. -/
theorem exec_effect {i : Instr} {s t : State} (run : exec i s = .next t) : Effect s i t := by
  cases i with
  | cls => exact .of_exec run (exec_cls s) .cls
  | ret =>
    obtain ⟨empty, rfl⟩ | ⟨held, inside, rfl⟩ := popAndJump_cases run
    · exact .fault (.ret (by rw [empty]; rfl))
    · have nonzero : s.sp.toNat ≠ 0 := fun empty => held (BitVec.eq_of_toNat_eq empty)
      exact .ret ⟨_, inside⟩ (by simp only [byte_sub_one held]; omega)
  | jp nnn => exact .of_exec run (exec_jp nnn s) (.jp nnn)
  | call nnn =>
    obtain ⟨full, rfl⟩ | ⟨room, rfl⟩ := pushAndJump_cases run
    · exact .fault (.call nnn (by rw [full]; rfl))
    · exact .call nnn room
  | seImm x kk => exact .of_exec run (exec_seImm x kk s) (.skipIf s ⟨x, 0, kk, by simp⟩ _)
  | sneImm x kk => exact .of_exec run (exec_sneImm x kk s) (.skipIf s ⟨x, 0, kk, by simp⟩ _)
  | seReg x y => exact .of_exec run (exec_seReg x y s) (.skipIf s ⟨x, y, 0, by simp⟩ _)
  | ldImm x kk => exact .of_exec run (exec_ldImm x kk s) (.result (fun _ => rfl) _)
  | addImm x kk => exact .of_exec run (exec_addImm x kk s) (.result (fun _ => rfl) _)
  | ldReg x y => exact .of_exec run (exec_ldReg x y s) (.result (fun _ => rfl) _)
  | orReg x y => exact .of_exec run (exec_orReg x y s) (.result (fun _ => rfl) _)
  | andReg x y => exact .of_exec run (exec_andReg x y s) (.result (fun _ => rfl) _)
  | xorReg x y => exact .of_exec run (exec_xorReg x y s) (.result (fun _ => rfl) _)
  | addReg x y => exact .of_exec run (exec_addReg x y s) (.flagThenResult (fun _ => rfl) _ _)
  | sub x y => exact .of_exec run (exec_sub x y s) (.flagThenResult (fun _ => rfl) _ _)
  | shr x y => exact .of_exec run (exec_shr x y s) (.flagThenResult (fun _ => rfl) _ _)
  | subn x y => exact .of_exec run (exec_subn x y s) (.flagThenResult (fun _ => rfl) _ _)
  | shl x y => exact .of_exec run (exec_shl x y s) (.flagThenResult (fun _ => rfl) _ _)
  | sneReg x y => exact .of_exec run (exec_sneReg x y s) (.skipIf s ⟨x, y, 0, by simp⟩ _)
  | ldI nnn => exact .of_exec run (exec_ldI nnn s) (.setI ⟨0, nnn, by simp⟩ _)
  | jpV0 nnn => exact .of_exec run (exec_jpV0 nnn s) (.jpV0 nnn)
  | rnd x kk => exact .of_exec run (exec_rnd x kk s) (.rnd x kk)
  | drw x y n =>
    obtain ⟨inside, rfl⟩ | ⟨rows, outside, rfl⟩ := withAccess_cases run
    · exact .drw x y n inside
    · exact .fault (.drw x y n ⟨rows, outside⟩)
  | skp x => exact .of_exec run (exec_skp x s) (.skipIf s ⟨x, 0, 0, by simp⟩ _)
  | sknp x => exact .of_exec run (exec_sknp x s) (.skipIf s ⟨x, 0, 0, by simp⟩ _)
  | ldVxDt x => exact .of_exec run (exec_ldVxDt x s) (.result (fun _ => rfl) _)
  | ldVxK x => exact .of_exec run (exec_ldVxK x s) (.ldVxK x)
  | ldDt x => exact .of_exec run (exec_ldDt x s) (.ldDt x)
  | ldSt x => exact .of_exec run (exec_ldSt x s) (s.writeSt_eq _ ▸ .ldSt x)
  | addI x => exact .of_exec run (exec_addI x s) (.setI ⟨x, 0, by simp⟩ _)
  | ldF x => exact .of_exec run (exec_ldF x s) (.setI ⟨x, 0, by simp⟩ _)
  | ldB x =>
    obtain ⟨inside, rfl⟩ | ⟨_, outside, rfl⟩ := withAccess_cases run
    · exact .ldB x (inside.resolve_left (by decide))
    · exact .fault (.ldB x outside)
  | ldMemVx x =>
    obtain ⟨inside, rfl⟩ | ⟨_, outside, rfl⟩ := withAccess_cases run
    · exact .ldMemVx x (inside.resolve_left (Nat.succ_ne_zero _))
    · exact .fault (.ldMemVx x outside)
  | ldVxMem x =>
    obtain ⟨inside, rfl⟩ | ⟨_, outside, rfl⟩ := withAccess_cases run
    · exact .ldVxMem x (inside.resolve_left (Nat.succ_ne_zero _))
    · exact .fault (.ldVxMem x outside)
  | nop0 | nop5 | nop8 | nop9 | nopE | nopF => exact .of_exec run (exec_of_isNoOp rfl s) (.nothing rfl)

end Sys2Proof.Machine
end

section
/-! PROOF. What the instructions may write (R24, R26 to R48): the writers of each field, read off the effects. -/
namespace Sys2Proof.Machine

/-- A register that an instruction does not list keeps its value, whatever the instruction does (R24). -/
theorem Effect.readV {i : Instr} {s t : State} {r : Reg} (effect : Effect s i t) (unlisted : writesV i r = false) :
    t.readV r = s.readV r := by
  cases effect with
  | result writes b =>
    rw [writes, beq_eq_false_iff_ne] at unlisted
    exact State.readV_writeV_of_ne unlisted
  | flagThenResult writes f b =>
    rw [writes, Bool.or_eq_false_iff, beq_eq_false_iff_ne, beq_eq_false_iff_ne] at unlisted
    rw [State.readV_writeFlagThenResult, if_neg unlisted.1, regF_eq, if_neg unlisted.2]
  | rnd x kk => exact State.readV_writeV_of_ne (beq_eq_false_iff_ne.mp unlisted)
  | ldVxMem x inside => exact (s.loadRegs_getElem x r).trans (if_neg (of_decide_eq_false unlisted))
  | drw x y n inside => rw [State.readV_drawSprite, if_neg (beq_eq_false_iff_ne.mp unlisted)]
  | _ => rfl

/-- Settles O52: no effect of an instruction reaches a register outside its list. -/
theorem registersChangeOnlyAsListed : Obligations.RegistersChangeOnlyAsListed := by
  unfold Obligations.RegistersChangeOnlyAsListed
  exact fun i s t r run => (exec_effect run).readV

section Writers
variable {i : Instr} {s t : State}

theorem Effect.v_writer (effect : Effect s i t) (changed : t.v ≠ s.v) : ∃ r, writesV i r = true := by
  by_contra none
  exact changed (State.v_ext fun r => effect.readV (Bool.eq_false_of_not_eq_true fun writes => none ⟨r, writes⟩))

theorem Effect.life_stop_writer (effect : Effect s i t) (changed : t.life ≠ s.life ∨ t.stop ≠ s.stop) :
    ∃ x y n nnn, i = .ret ∨ i = .call nnn ∨ i = .ldB x ∨ i = .ldMemVx x ∨ i = .ldVxMem x ∨ i = .drw x y n := by
  cases effect with
  | fault raised => cases raised <;> simp
  | _ => exact (changed.elim (absurd rfl) (absurd rfl) : False).elim

theorem Effect.mem_writer (effect : Effect s i t) (changed : t.mem ≠ s.mem) : ∃ x, i = .ldB x ∨ i = .ldMemVx x := by
  cases effect with
  | ldB x _ => exact ⟨x, .inl rfl⟩
  | ldMemVx x _ => exact ⟨x, .inr rfl⟩
  | _ => exact absurd rfl changed

theorem Effect.i_writer (effect : Effect s i t) (changed : t.i ≠ s.i) :
    ∃ x nnn, i = .ldI nnn ∨ i = .addI x ∨ i = .ldF x ∨ i = .ldMemVx x ∨ i = .ldVxMem x := by
  cases effect with
  | setI writes _ =>
    obtain ⟨x, nnn, writer⟩ := writes
    exact ⟨x, nnn, writer.imp_right (.imp_right .inl)⟩
  | ldMemVx x _ => exact ⟨x, 0, by simp⟩
  | ldVxMem x _ => exact ⟨x, 0, by simp⟩
  | _ => exact absurd rfl changed

theorem Effect.stack_writer (effect : Effect s i t) (changed : t.stack ≠ s.stack) : ∃ nnn, i = .call nnn := by
  cases effect with
  | call nnn _ => exact ⟨nnn, rfl⟩
  | _ => exact absurd rfl changed

theorem Effect.sp_writer (effect : Effect s i t) (changed : t.sp ≠ s.sp) : ∃ nnn, i = .call nnn ∨ i = .ret := by
  cases effect with
  | call nnn _ => exact ⟨nnn, .inl rfl⟩
  | ret _ _ => exact ⟨0, .inr rfl⟩
  | _ => exact absurd rfl changed

theorem Effect.dt_writer (effect : Effect s i t) (changed : t.dt ≠ s.dt) : ∃ x, i = .ldDt x := by
  cases effect with
  | ldDt x => exact ⟨x, rfl⟩
  | _ => exact absurd rfl changed

theorem Effect.st_writer (effect : Effect s i t) (changed : t.st ≠ s.st) : ∃ x, i = .ldSt x := by
  cases effect with
  | ldSt x => exact ⟨x, rfl⟩
  | _ => exact absurd rfl changed

theorem Effect.fb_writer (effect : Effect s i t) (changed : t.fb ≠ s.fb) : ∃ x y n, i = .cls ∨ i = .drw x y n := by
  cases effect with
  | cls => exact ⟨0, 0, 0, .inl rfl⟩
  | drw x y n _ => exact ⟨x, y, n, .inr rfl⟩
  | _ => exact absurd rfl changed

theorem Effect.wait_writer (effect : Effect s i t) (changed : t.wait ≠ s.wait) : ∃ x, i = .ldVxK x := by
  cases effect with
  | ldVxK x => exact ⟨x, rfl⟩
  | _ => exact absurd rfl changed

theorem Effect.draws_writer (effect : Effect s i t) (changed : t.draws ≠ s.draws) : ∃ x kk, i = .rnd x kk := by
  cases effect with
  | rnd x kk => exact ⟨x, kk, rfl⟩
  | _ => exact absurd rfl changed

theorem Effect.events_writer (effect : Effect s i t) (changed : t.events ≠ s.events) :
    ∃ x y n, i = .cls ∨ i = .drw x y n ∨ i = .ldSt x := by
  cases effect with
  | cls => exact ⟨0, 0, 0, .inl rfl⟩
  | drw x y n _ => exact ⟨x, y, n, .inr (.inl rfl)⟩
  | ldSt x => exact ⟨x, 0, 0, .inr (.inr rfl)⟩
  | _ => exact absurd rfl changed

theorem Effect.pc_writer (effect : Effect s i t) (changed : t.pc ≠ s.pc) :
    ∃ x y kk nnn, i = .ret ∨ i = .jp nnn ∨ i = .call nnn ∨ i = .jpV0 nnn ∨ i = .seImm x kk ∨ i = .sneImm x kk ∨
      i = .seReg x y ∨ i = .sneReg x y ∨ i = .skp x ∨ i = .sknp x := by
  cases effect with
  | skip skips _ =>
    obtain ⟨x, y, kk, skip⟩ := skips
    exact ⟨x, y, kk, 0, .inr (.inr (.inr (.inr skip)))⟩
  | ret _ _ => exact ⟨0, 0, 0, 0, .inl rfl⟩
  | jp nnn => exact ⟨0, 0, 0, nnn, .inr (.inl rfl)⟩
  | call nnn _ => exact ⟨0, 0, 0, nnn, .inr (.inr (.inl rfl))⟩
  | jpV0 nnn => exact ⟨0, 0, 0, nnn, .inr (.inr (.inr (.inl rfl)))⟩
  | _ => exact absurd rfl changed

/-- The host's fields and the schedule have no writer among the instructions (R41). -/
theorem Effect.keeps_host_fields (effect : Effect s i t) :
    t.keys = s.keys ∧ t.lastKey = s.lastKey ∧ t.schedule = s.schedule := by
  cases effect <;> exact ⟨rfl, rfl, rfl⟩

end Writers

/-- Settles O51: the writers of every field, each from the effects of the instructions. -/
theorem everyFieldHasItsWriters : Obligations.EveryFieldHasItsWriters := by
  unfold Obligations.EveryFieldHasItsWriters
  intro i s t run
  have effect := exec_effect run
  exact ⟨effect.v_writer, effect.life_stop_writer, effect.mem_writer, effect.i_writer, effect.stack_writer,
    effect.sp_writer, effect.dt_writer, effect.st_writer, effect.fb_writer, effect.wait_writer, effect.draws_writer,
    effect.events_writer, effect.pc_writer, effect.keeps_host_fields⟩

/-- An instruction that stops a running engine raised a fault, and did nothing else. -/
theorem Effect.fault_of_stopped {i : Instr} {s t : State} (effect : Effect s i t) (running : s.life = .running)
    (stopped : t.life ≠ .running) :
    ∃ c, Raises s i c ∧ t = s.halt c (s.pc - 2#16) (some (encodeWord i)) := by
  cases effect with
  | fault raised => exact ⟨_, raised, rfl⟩
  | _ => exact absurd running stopped

theorem Raises.cause {s : State} {i : Instr} {c : Cause} (raised : Raises s i c) :
    c = .stackOverflow ∨ c = .stackUnderflow ∨ c = .memoryFault := by
  cases raised <;> simp

/-- Settles O45: the instruction ran after the fetch's advance, so PC - 2 is where its word was fetched, and its encoding
is that word. -/
theorem faultsArePrecise : Obligations.FaultsArePrecise := by
  unfold Obligations.FaultsArePrecise
  intro s t rest ready next fetchable stepped stopped
  rw [step_of_loopReady ready next, cycle_of_pc_inside (s := s.setSchedule rest) fetchable] at stepped
  obtain ⟨c, raised, rfl⟩ := (exec_effect stepped).fault_of_stopped ready.1 stopped
  refine ⟨c, raised.cause, ?_⟩
  rw [State.halt_eq, encodeWord_decodeWord, State.setPc_pc, State.setSchedule_pc, BitVec.add_sub_cancel]
  rfl

end Sys2Proof.Machine
end

section
/-! PROOF. The host's turn (R321 to R323): the fields it may reach, the lifecycle table, and what a stopped engine still
takes (R309, D35). -/
namespace Sys2Proof.Machine

/-- Whose turn a step was, and what that agent did in the state with the turn taken from the schedule (R8). -/
theorem step_agent {s t : State} (stepped : step s = .next t) :
    ∃ rest, loopTurn (s.setSchedule rest) = .next t ∨ tickTurn (s.setSchedule rest) = .next t ∨
      ∃ e, hostTurn e (s.setSchedule rest) = .next t := by
  obtain ⟨unscheduled, loop⟩ | ⟨turn, rest, _, taken⟩ := step_cases stepped
  · exact ⟨[], .inl (State.setSchedule_self unscheduled ▸ loop)⟩
  · cases turn with
    | loop => exact ⟨rest, .inl taken⟩
    | tick => exact ⟨rest, .inr (.inl taken)⟩
    | host e => exact ⟨rest, .inr (.inr ⟨e, taken⟩)⟩

theorem step_of_host {s : State} {e : HostEvent} {rest : List Turn} (h : s.schedule = .host e :: rest) :
    step s = hostTurn e (s.setSchedule rest) :=
  step_of_schedule_cons h

/-- A key press writes a register and WAIT at most, beside the key it marks (R276). -/
theorem State.endWait_frame (s : State) (k : Key) :
    s.endWait k = { s with v := (s.endWait k).v, wait := (s.endWait k).wait } := by
  obtain ⟨x, _, _, ended⟩ | ⟨_, unchanged⟩ := s.endWait_cases k
  · rw [ended]
    rfl
  · rw [unchanged]

/-- The fields that the host reaches (R323). -/
theorem hostTurn_frame {e : HostEvent} {s t : State} (turn : hostTurn e s = .next t) :
    t = { s with
      v := t.v, keys := t.keys, lastKey := t.lastKey, wait := t.wait, life := t.life, stop := t.stop } := by
  obtain ⟨rfl, _⟩ | ⟨_, _, rfl⟩ | ⟨_, _, rfl⟩ | ⟨k, _, rfl⟩ | ⟨k, _, rfl⟩ := hostTurn_cases turn
  case inr.inr.inr.inl =>
    rw [State.endWait_frame]
    rfl
  all_goals rfl

/-- The one register that the host can change is that of a pending key-wait (R276, R278). -/
theorem hostTurn_writes_v {e : HostEvent} {s t : State} (turn : hostTurn e s = .next t) (changed : t.v ≠ s.v) :
    s.Waiting ∧ ∃ k, e = .keyPress k := by
  obtain ⟨rfl, _⟩ | ⟨_, _, rfl⟩ | ⟨_, _, rfl⟩ | ⟨k, press, rfl⟩ | ⟨k, _, rfl⟩ := hostTurn_cases turn
  case inr.inr.inr.inl =>
    refine ⟨?_, k, press⟩
    obtain ⟨x, running, waiting, _⟩ | ⟨_, unchanged⟩ := ((s.setKey k true).setLastKey (some k)).endWait_cases k
    · exact ⟨running, ne_of_eq_of_ne waiting (Option.some_ne_none x)⟩
    · exact absurd (congrArg (·.v) unchanged) changed
  all_goals exact absurd rfl changed

/-- Settles O53: the host's step is its turn with the turn taken from the schedule. -/
theorem hostReachesOnlyItsInterface : Obligations.HostReachesOnlyItsInterface := by
  unfold Obligations.HostReachesOnlyItsInterface
  intro s t e rest scheduled stepped
  rw [step_of_host scheduled] at stepped
  exact ⟨hostTurn_frame stepped, hostTurn_writes_v (s := s.setSchedule rest) stepped⟩

theorem hostStart_eq (s : State) :
    hostStart s = .next { s with life := if s.life = .ready then .running else s.life } := by
  unfold hostStart
  split
  next ready => rw [if_pos ready, State.setLife]
  next running => rw [if_neg (by simp [running])]
  next stopped => rw [if_neg (by simp [stopped])]

theorem hostStop_running {s : State} (running : s.life = .running) :
    hostStop s = .next { s with life := .stopped, wait := none, stop := some ⟨.stopRequested, s.pc, none⟩ } := by
  unfold hostStop
  rw [running]
  rfl

theorem hostStop_of_not_running {s : State} (idle : s.life ≠ .running) : hostStop s = .next s := by
  unfold hostStop
  split
  next running => exact absurd running idle
  next => rfl
  next => rfl

/-- Settles O43: the rows of the table, each in the state with the turn taken from the schedule. -/
theorem lifecycleTable : Obligations.LifecycleTable := by
  unfold Obligations.LifecycleTable
  refine fun s rest => ⟨fun start => ?_, fun stop running => ?_, fun stop idle => ?_⟩
  · exact (step_of_host start).trans (hostStart_eq _)
  · exact (step_of_host stop).trans (hostStop_running (s := s.setSchedule rest) running)
  · exact (step_of_host stop).trans (hostStop_of_not_running (s := s.setSchedule rest) idle)

/-- In Stopped the host can still mark keys (D35). -/
theorem hostTurn_of_stopped {e : HostEvent} {s t : State} (stopped : s.life = .stopped)
    (turn : hostTurn e s = .next t) : t = { s with keys := t.keys, lastKey := t.lastKey } := by
  obtain ⟨rfl, _⟩ | ⟨_, ready, rfl⟩ | ⟨_, running, rfl⟩ | ⟨k, _, rfl⟩ | ⟨k, _, rfl⟩ := hostTurn_cases turn
  · rfl
  · exact absurd (stopped.symm.trans ready) (by decide)
  · exact absurd (stopped.symm.trans running) (by decide)
  · obtain ⟨x, running, _⟩ | ⟨_, unchanged⟩ := ((s.setKey k true).setLastKey (some k)).endWait_cases k
    · exact absurd (stopped.symm.trans running) (by decide)
    · rw [unchanged]
      rfl
  · rfl

/-- Settles O44: the loop and the tick move in Running alone, and the host marks keys. -/
theorem stoppedIsFinal : Obligations.StoppedIsFinal := by
  unfold Obligations.StoppedIsFinal
  intro s t stopped stepped
  have notRunning : s.life ≠ .running := by simp [stopped]
  obtain ⟨rest, loop | tick | ⟨e, host⟩⟩ := step_agent stepped
  · exact absurd (loopTurn_cases loop).1.1 notRunning
  · exact absurd (tickTurn_cases tick).1 notRunning
  · have frame := hostTurn_of_stopped (s := s.setSchedule rest) stopped host
    rw [frame]
    rfl

/-- Settles O41: neither key event has a step for such a code. -/
theorem keyCodesAboveFifteenAreRefused : Obligations.KeyCodesAboveFifteenAreRefused := by
  unfold Obligations.KeyCodesAboveFifteenAreRefused
  rintro s code rest above (press | release)
  · exact (step_of_host press).trans (dif_neg (Nat.not_lt_of_le above))
  · exact (step_of_host release).trans (dif_neg (Nat.not_lt_of_le above))

end Sys2Proof.Machine
end

section
/-! PROOF. The legal states (R20, R27, R32, R40, R43, R60): every instruction, tick and host event keeps them. -/
namespace Sys2Proof.Machine

theorem State.Inv.setPc {s : State} (inv : s.Inv) {a : Word} (bound : a.toNat ≤ 0x10FE) : (s.setPc a).Inv :=
  { inv with pc := bound }

/-- A stop outside a key-wait gives LIFE and STOP the values that go together. -/
theorem State.Inv.halt {s : State} (inv : s.Inv) (idle : s.wait = none) (c : Cause) (pc : Word) (w : Option Word) :
    (s.halt c pc w).Inv :=
  { inv with
    stop := by simp [State.halt_eq]
    wait := fun waiting => absurd idle waiting }

/-- A push of an address in range keeps the return addresses: the new entry is in range, the others stay. -/
theorem State.Inv.push {s : State} (inv : s.Inv) (room : s.sp.toNat < 16) (fetched : s.pc.toNat ≤ 0x1000) :
    ((s.setSlot ⟨s.sp.toNat, room⟩ s.pc).setSp (s.sp + 1#8)).Inv where
  memory := inv.memory
  sp := (State.sp_add_one_toNat room).trans_le room
  pc := inv.pc
  returns := by
    intro j held
    rw [State.setSp_sp, State.sp_add_one_toNat room] at held
    rw [State.setSp_stack, State.setSlot_slot]
    split_ifs with top
    · exact fetched
    · exact inv.returns j (by simp only at top; omega)
  stop := inv.stop
  wait := inv.wait

/-- A pop leaves a part of the entries that were there. -/
theorem State.Inv.pop {s : State} (inv : s.Inv) {j : Fin 16} (top : s.sp.toNat = j.val + 1) :
    (s.setSp (s.sp - 1#8)).Inv where
  memory := inv.memory
  sp := by rw [State.setSp_sp, State.sp_sub_one_toNat top]; omega
  pc := inv.pc
  returns := by
    intro k held
    rw [State.setSp_sp, State.sp_sub_one_toNat top] at held
    exact inv.returns k (by omega)
  stop := inv.stop
  wait := inv.wait

/-- An instruction of a ready loop, run after fetch's advance, keeps the legal states: PC gains at most 2 by a skip, and
otherwise takes a 12-bit address, the sum of one and a byte, or a return address. -/
theorem Effect.inv {i : Instr} {s t : State} (effect : Effect s i t) (inv : s.Inv) (ready : s.LoopReady)
    (fetched : s.pc.toNat ≤ 0x1000) : t.Inv := by
  cases effect with
  | fault raised => exact inv.halt ready.2 _ _ _
  | skip _ c => exact inv.setPc (by split_ifs <;> bv_omega)
  | jp nnn => exact inv.setPc (by rw [zextNnn_toNat]; omega)
  | jpV0 nnn =>
    have offset := (s.readV 0).isLt
    exact inv.setPc (by rw [State.jumpSum_toNat]; omega)
  | call nnn room => exact (inv.push room fetched).setPc (by rw [zextNnn_toNat]; omega)
  | ret j top => exact (inv.pop top).setPc ((inv.returns j (by omega)).trans (by decide))
  | ldB x inside => exact { inv with memory := Memory.storeBytes_wf inv.memory inside }
  | ldMemVx x inside =>
    exact { inv with memory := Memory.storeBytes_wf inv.memory (by rwa [State.regsUpTo_length]) }
  | ldVxK x => exact { inv with wait := fun _ => ready.1 }
  | _ => exact { inv with }

theorem loopTurn_keeps_inv {s t : State} (inv : s.Inv) (turn : loopTurn s = .next t) : t.Inv := by
  obtain ⟨ready, cycled⟩ := loopTurn_cases turn
  obtain ⟨_, rfl⟩ | ⟨fetchable, run⟩ := cycle_cases cycled
  · exact inv.halt ready.2 _ _ _
  · have fetched : (s.pc + 2#16).toNat ≤ 0x1000 := by bv_omega
    exact (exec_effect run).inv (inv.setPc (fetched.trans (by decide))) ready fetched

theorem tickTurn_keeps_inv {s t : State} (inv : s.Inv) (turn : tickTurn s = .next t) : t.Inv := by
  obtain ⟨_, rfl⟩ := tickTurn_cases turn
  rw [State.tickTimers_eq]
  exact { inv with }

/-- A key press that ends a wait leaves none; any other leaves WAIT and LIFE alone (R276, R278). -/
theorem State.Inv.endWait {s : State} (inv : s.Inv) (k : Key) : (s.endWait k).Inv := by
  obtain ⟨x, _, _, ended⟩ | ⟨_, unchanged⟩ := s.endWait_cases k
  · rw [ended]
    exact { inv with wait := fun waiting => absurd rfl waiting }
  · rwa [unchanged]

theorem hostTurn_keeps_inv {e : HostEvent} {s t : State} (inv : s.Inv) (turn : hostTurn e s = .next t) : t.Inv := by
  obtain ⟨rfl, _⟩ | ⟨_, loaded, rfl⟩ | ⟨_, _, rfl⟩ | ⟨k, _, rfl⟩ | ⟨k, _, rfl⟩ := hostTurn_cases turn
  · exact inv
  · have unstopped : s.stop = none := inv.stop.mpr (by simp [loaded])
    exact { inv with
      stop := by simp [unstopped]
      wait := fun _ => rfl }
  · have noWait : (s.setWait none).Inv := { inv with wait := fun waiting => absurd rfl waiting }
    exact noWait.halt rfl _ _ _
  · exact State.Inv.endWait (s := (s.setKey k true).setLastKey (some k)) { inv with } k
  · exact { inv with }

/-- Settles O49: each agent keeps the legal states, and taking a turn from the schedule does. -/
theorem everyStepKeepsTheInvariant : Obligations.EveryStepKeepsTheInvariant := by
  unfold Obligations.EveryStepKeepsTheInvariant
  intro s t inv stepped
  obtain ⟨rest, loop | tick | ⟨e, host⟩⟩ := step_agent stepped
  · exact loopTurn_keeps_inv (s := s.setSchedule rest) { inv with } loop
  · exact tickTurn_keeps_inv (s := s.setSchedule rest) { inv with } tick
  · exact hostTurn_keeps_inv (s := s.setSchedule rest) { inv with } host

end Sys2Proof.Machine
end

section
/-! PROOF. The tone (R44, R288, D19): the events that a step appends keep the trace alternating and in agreement with
ST. -/
namespace Sys2Proof.Machine

theorem toneAfter_append (l m : List OutEvent) : toneAfter (l ++ m) = m.foldl toneStep (toneAfter l) :=
  List.foldl_append

/-- The edge of a write to ST takes the tone from what the old value says to what the new one says. -/
theorem foldl_toneEdge (a b : Byte) : (toneEdge a b).foldl toneStep (some (a != 0#8)) = some (b != 0#8) := by
  unfold toneEdge
  split_ifs with start stop
  · rw [start.1, bne_iff_ne.mpr start.2]
    rfl
  · rw [bne_iff_ne.mpr stop.1, stop.2]
    rfl
  · have same : (a != 0#8) = (b != 0#8) := by
      rw [Bool.eq_iff_iff, bne_iff_ne, bne_iff_ne]
      tauto
    rw [List.foldl_nil, same]

/-- A step that appends the edge of its write to ST keeps the tone invariant. -/
theorem State.ToneInv.edge {s t : State} (tone : s.ToneInv) (events : t.events = s.events ++ toneEdge s.st t.st) :
    t.ToneInv := by
  rw [State.ToneInv, events, toneAfter_append, tone]
  exact foldl_toneEdge s.st t.st

/-- The display has no part in the tone. -/
theorem State.ToneInv.display {s t : State} {f : FrameBuffer} (tone : s.ToneInv)
    (events : t.events = s.events ++ [.display f]) (kept : t.st = s.st) : t.ToneInv := by
  rw [State.ToneInv, events, toneAfter_append, tone, State.toneOn, State.toneOn, kept]
  rfl

theorem Effect.tone {i : Instr} {s t : State} (effect : Effect s i t) (tone : s.ToneInv) : t.ToneInv := by
  cases effect with
  | cls => exact tone.display rfl rfl
  | drw x y n _ => exact tone.display rfl rfl
  | ldSt x => exact tone.edge rfl
  | _ => exact tone

/-- Settles O50: instructions and ticks append the edge of what they write to ST, or a display event, or nothing; the
host reaches neither ST nor the trace. -/
theorem toneEventsAlternate : Obligations.ToneEventsAlternate := by
  unfold Obligations.ToneEventsAlternate
  intro s t tone stepped
  obtain ⟨rest, loop | tick | ⟨e, host⟩⟩ := step_agent stepped
  · obtain ⟨_, rfl⟩ | ⟨_, run⟩ := cycle_cases (loopTurn_cases loop).2
    · exact tone
    · exact (exec_effect run).tone tone
  · obtain ⟨_, rfl⟩ := tickTurn_cases tick
    rw [State.tickTimers_eq]
    exact State.ToneInv.edge (s := s) tone rfl
  · rw [hostTurn_frame host]
    exact tone

end Sys2Proof.Machine
end

section
/-! PROOF. Reset (R50, R340): its values, and the invariants that it starts. -/
namespace Sys2Proof.Machine

theorem State.reset_inv : State.reset.Inv where
  memory := State.reset_mem_wf
  sp := by decide
  pc := by decide
  returns := fun j held => absurd held (Nat.not_lt_zero _)
  stop := by decide
  wait := fun waiting => absurd rfl waiting

/-- Settles O48: reset has an empty memory, stack and trace, no wait and no stop. -/
theorem invariantsHoldAtReset : Obligations.InvariantsHoldAtReset := by
  unfold Obligations.InvariantsHoldAtReset
  exact ⟨State.reset_inv, rfl⟩

/-- Settles O47: the grid of reset is the blank one, and every other value is a constant. -/
theorem resetLeavesTheSpecValues : Obligations.ResetLeavesTheSpecValues := by
  unfold Obligations.ResetLeavesTheSpecValues
  exact ⟨rfl, rfl, rfl, rfl, pixel_blankFrame, by decide, rfl, rfl, rfl, rfl, by decide⟩

end Sys2Proof.Machine
end

section
/-! PROOF. Call and return together (95_test_vectors.md A10), and with an SP that no run reaches (log entry 10). -/
namespace Sys2Proof.Machine

/-- Settles O15: the pushed entry is the top one, so the return pops the PC that the call pushed and lowers SP to where
it was. -/
theorem returnUndoesCall : Obligations.ReturnUndoesCall := by
  unfold Obligations.ReturnUndoesCall
  intro s nnn room
  have pushed := (exec_call nnn s).trans (pushAndJump_room room)
  have popped := (exec_ret _).trans (popAndJump_top (i := .ret) (j := ⟨s.sp.toNat, room⟩)
    (s := ((s.setSlot ⟨s.sp.toNat, room⟩ s.pc).setSp (s.sp + 1#8)).setPc (zextNnn nnn)) (State.sp_add_one_toNat room))
  refine ⟨_, _, pushed, popped, ?_, fun j other => ?_⟩
  · simp only [State.setPc_sp, State.setSp_sp, State.setPc_stack, State.setSp_stack, State.setSlot_stack,
      Vector.getElem_set_self, BitVec.add_sub_cancel]
    rfl
  · exact (s.setSlot_slot ⟨s.sp.toNat, room⟩ j s.pc).trans (if_neg other)

/-- `Push` with an SP that is no number of entries stops by name (log entry 10). -/
theorem pushAndJump_above {i : Instr} {target : Word} {s : State} (above : 16 < s.sp.toNat) :
    pushAndJump i target s = .fault .spOutOfRange := by
  have notFull : s.sp ≠ 16#8 := by bv_omega
  rw [pushAndJump, if_neg notFull, dif_neg (by omega)]

/-- `Pop` with an SP that is no number of entries stops by name (log entry 10). -/
theorem popAndJump_above {i : Instr} {s : State} (above : 16 < s.sp.toNat) : popAndJump i s = .fault .spOutOfRange := by
  have held : s.sp ≠ 0#8 := by bv_omega
  rw [popAndJump, if_neg held, dif_neg (by rw [byte_sub_one held]; omega)]

/-- Settles O14: neither a push nor a pop has a slot for such an SP. -/
theorem spAboveSixteenStopsByName : Obligations.SpAboveSixteenStopsByName := by
  unfold Obligations.SpAboveSixteenStopsByName
  exact fun s nnn above =>
    ⟨(exec_call nnn s).trans (pushAndJump_above above), (exec_ret s).trans (popAndJump_above above)⟩

/-- The stack is empty, has a top entry, or SP is above 16. -/
theorem State.sp_cases (s : State) : s.sp.toNat = 0 ∨ (∃ j : Fin 16, s.sp.toNat = j.val + 1) ∨ 16 < s.sp.toNat := by
  cases held : s.sp.toNat with
  | zero => exact .inl rfl
  | succ n =>
    by_cases inside : n < 16
    · exact .inr (.inl ⟨⟨n, inside⟩, rfl⟩)
    · exact .inr (.inr (by omega))

end Sys2Proof.Machine
end

section
/-! PROOF. The loop's turn (R120, R121): it has a step in every legal state that is ready and in no other, and its step
is the fetched instruction. -/
namespace Sys2Proof.Machine

theorem step_of_loopNext {s : State} {rest : List Turn} (next : s.LoopNext rest) :
    step s = loopTurn (s.setSchedule rest) := by
  obtain ⟨unscheduled, rfl⟩ | scheduled := next
  · rw [step_of_schedule_nil unscheduled, State.setSchedule_self unscheduled]
  · exact step_of_schedule_cons scheduled

/-- A checked access has a next state either way. -/
theorem withAccess_next (i : Instr) (a n : Nat) (s effect : State) : ∃ t, withAccess i a n s effect = .next t := by
  unfold withAccess
  split
  · exact ⟨_, rfl⟩
  · exact ⟨_, rfl⟩

/-- With SP in its legal range every instruction has a next state (R32, R39). -/
theorem exec_next {s : State} (sp : s.sp.toNat ≤ 16) (i : Instr) : ∃ t, exec i s = .next t := by
  cases i with
  | call nnn =>
    obtain room | full := Nat.lt_or_eq_of_le sp
    · exact ⟨_, pushAndJump_room room⟩
    · exact ⟨_, pushAndJump_full full⟩
  | ret =>
    obtain empty | ⟨j, top⟩ | above := s.sp_cases
    · exact ⟨_, popAndJump_empty empty⟩
    · exact ⟨_, popAndJump_top top⟩
    · exact absurd sp (Nat.not_le_of_lt above)
  | ldB | ldMemVx | ldVxMem | drw => exact withAccess_next _ _ _ _ _
  | _ => exact ⟨_, rfl⟩

/-- Settles O9: a turn that has a next state was a ready loop's; a ready loop's cycle halts or runs an instruction, which
has a next state in a legal state. -/
theorem loopStepsExactlyWhenReady : Obligations.LoopStepsExactlyWhenReady := by
  unfold Obligations.LoopStepsExactlyWhenReady
  intro s rest inv next
  constructor
  · rintro ⟨t, stepped⟩
    exact (loopTurn_cases ((step_of_loopNext next).symm.trans stepped)).1
  · intro ready
    rw [step_of_loopReady ready next]
    by_cases outside : 4095 ≤ s.pc.toNat
    · exact ⟨_, cycle_of_pc_outside (s := s.setSchedule rest) outside⟩
    · rw [cycle_of_pc_inside (s := s.setSchedule rest) (Nat.lt_of_not_le outside)]
      exact exec_next (s := (s.setSchedule rest).setPc (s.pc + 2#16)) inv.sp _

/-- Settles O7: the two bytes decode as their word, which is the word that the cycle fetches. -/
theorem stepRunsTheDecodedInstruction : Obligations.StepRunsTheDecodedInstruction := by
  unfold Obligations.StepRunsTheDecodedInstruction
  intro s rest i more ready next fetchable _ decoded
  have fetched : decodeWord (Memory.readWord s.mem s.pc.toNat) = i := congrArg Prod.fst (Except.ok.inj decoded)
  rw [step_of_loopReady ready next, cycle_of_pc_inside (s := s.setSchedule rest) fetchable, ← fetched]
  rfl

/-- A loop's turn during a key-wait stops the model by name (log entry 2). -/
theorem loopTurn_waiting {s : State} {x : Reg} (running : s.life = .running) (waiting : s.wait = some x) :
    loopTurn s = .fault .loopWaiting := by
  simp only [loopTurn, running, waiting]

/-- Settles O38: the row decodes by its family and `kk`, Fx0A writes WAIT alone, and a waiting loop has no step. -/
theorem keyWaitSuspendsTheLoop : Obligations.KeyWaitSuspendsTheLoop := by
  unfold Obligations.KeyWaitSuspendsTheLoop
  refine ⟨ldVxK_rowDecodes, fun s x => ⟨exec_ldVxK x s, fun running unscheduled => ?_⟩⟩
  rw [step_of_schedule_nil (s := { s with wait := some x }) unscheduled]
  exact loopTurn_waiting running rfl

end Sys2Proof.Machine
end


section
/-! PROOF. LASTKEY and the output trace are read by no step (R41, R48, R255, D16, D20): a step commutes with a change of
the one and with events put before the other. -/
namespace Sys2Proof.Machine

/-- `s` with another last key and with `pre` before its trace. -/
def State.reread (g : Option Key → Option Key) (pre : List OutEvent) (s : State) : State :=
  { s with lastKey := g s.lastKey, events := pre ++ s.events }

/-- A function on states, on the next state that a result holds. -/
def mapNext (f : State → State) : Result → Result
  | .next s => .next (f s)
  | .fault r => .fault r
  | .refused r => .refused r

section Reread
variable (g : Option Key → Option Key) (pre : List OutEvent) (s : State)

@[simp] theorem State.reread_life : (s.reread g pre).life = s.life := rfl
@[simp] theorem State.reread_wait : (s.reread g pre).wait = s.wait := rfl

theorem State.reread_emit (e : OutEvent) : (s.reread g pre).emit e = (s.emit e).reread g pre := by
  simp only [State.emit, State.reread, List.append_assoc]

theorem State.reread_skipIf (c : Bool) : (s.reread g pre).skipIf c = (s.skipIf c).reread g pre := by
  cases c <;> rfl

theorem State.reread_writeSt (b : Byte) : (s.reread g pre).writeSt b = (s.writeSt b).reread g pre := by
  simp only [State.writeSt_eq, State.reread, List.append_assoc]

theorem State.reread_tickTimers : (s.reread g pre).tickTimers = s.tickTimers.reread g pre :=
  State.reread_writeSt g pre (s.setDt (decrement s.dt)) (decrement s.st)

theorem State.reread_endWait (k : Key) : (s.reread g pre).endWait k = (s.endWait k).reread g pre := by
  simp only [State.endWait, State.reread_life, State.reread_wait]
  split <;> rfl

theorem withAccess_reread (i : Instr) (a n : Nat) {effect effect' : State} (h : effect' = effect.reread g pre) :
    withAccess i a n (s.reread g pre) effect' = mapNext (State.reread g pre) (withAccess i a n s effect) := by
  unfold withAccess
  rw [h]
  split <;> rfl

theorem pushAndJump_reread (i : Instr) (target : Word) :
    pushAndJump i target (s.reread g pre) = mapNext (State.reread g pre) (pushAndJump i target s) := by
  obtain room | full | above := lt_trichotomy s.sp.toNat 16
  · rw [pushAndJump_room room, pushAndJump_room (s := s.reread g pre) room]
    rfl
  · rw [pushAndJump_full full, pushAndJump_full (s := s.reread g pre) full]
    rfl
  · rw [pushAndJump_above above, pushAndJump_above (s := s.reread g pre) above]
    rfl

theorem popAndJump_reread (i : Instr) :
    popAndJump i (s.reread g pre) = mapNext (State.reread g pre) (popAndJump i s) := by
  obtain empty | ⟨j, top⟩ | above := s.sp_cases
  · rw [popAndJump_empty empty, popAndJump_empty (s := s.reread g pre) empty]
    rfl
  · rw [popAndJump_top top, popAndJump_top (s := s.reread g pre) top]
    rfl
  · rw [popAndJump_above above, popAndJump_above (s := s.reread g pre) above]
    rfl

/-- Every operation that an instruction is made of commutes with the change. -/
theorem exec_reread (i : Instr) : exec i (s.reread g pre) = mapNext (State.reread g pre) (exec i s) := by
  cases i with
  | cls => exact congrArg Host.Outcome.next (State.reread_emit g pre (s.setFb blankFrame) _)
  | ret => exact popAndJump_reread g pre s _
  | call nnn => exact pushAndJump_reread g pre s _ _
  | seImm | sneImm | seReg | sneReg | skp | sknp => exact congrArg Host.Outcome.next (State.reread_skipIf g pre s _)
  | drw x y n =>
    have drawn := State.reread_emit g pre ((s.setFb (s.drawn x y n).1).writeV regF (flagByte (s.drawn x y n).2))
      (.display (s.drawn x y n).1)
    exact withAccess_reread g pre s _ _ _ drawn
  | ldSt x => exact congrArg Host.Outcome.next (State.reread_writeSt g pre s _)
  | ldB | ldMemVx | ldVxMem => exact withAccess_reread g pre s _ _ _ rfl
  | _ => rfl

theorem loopTurn_reread : loopTurn (s.reread g pre) = mapNext (State.reread g pre) (loopTurn s) := by
  have cycle_reread : cycle (s.reread g pre) = mapNext (State.reread g pre) (cycle s) := by
    by_cases outside : 4095 ≤ s.pc.toNat
    · rw [cycle_of_pc_outside outside, cycle_of_pc_outside (s := s.reread g pre) outside]
      rfl
    · have inside := Nat.lt_of_not_le outside
      rw [cycle_of_pc_inside inside, cycle_of_pc_inside (s := s.reread g pre) inside]
      exact exec_reread g pre (s.setPc (s.pc + 2#16)) _
  simp only [loopTurn, State.reread_life, State.reread_wait, cycle_reread]
  split <;> rfl

theorem tickTurn_reread : tickTurn (s.reread g pre) = mapNext (State.reread g pre) (tickTurn s) := by
  simp only [tickTurn, State.reread_life, State.reread_tickTimers]
  split <;> rfl

/-- A key press forgets the last key before it; every other event keeps it (R276). -/
theorem hostTurn_reread (e : HostEvent) : ∃ g', (g = id → g' = id) ∧
    hostTurn e (s.reread g pre) = mapNext (State.reread g' pre) (hostTurn e s) := by
  cases e with
  | start =>
    refine ⟨g, id, ?_⟩
    simp only [hostTurn, hostStart, State.reread_life]
    split <;> rfl
  | stop =>
    refine ⟨g, id, ?_⟩
    simp only [hostTurn, hostStop, State.reread_life]
    split <;> rfl
  | keyPress code =>
    refine ⟨id, fun _ => rfl, ?_⟩
    simp only [hostTurn, keyPress]
    split_ifs with named
    · exact congrArg Host.Outcome.next
        (State.reread_endWait id pre ((s.setKey ⟨code, named⟩ true).setLastKey (some ⟨code, named⟩)) ⟨code, named⟩)
    · rfl
  | keyRelease code =>
    refine ⟨g, id, ?_⟩
    simp only [hostTurn, keyRelease]
    split_ifs <;> rfl

theorem step_reread : ∃ g', (g = id → g' = id) ∧
    step (s.reread g pre) = mapNext (State.reread g' pre) (step s) := by
  cases scheduled : s.schedule with
  | nil =>
    rw [step_of_schedule_nil scheduled, step_of_schedule_nil (s := s.reread g pre) scheduled]
    exact ⟨g, id, loopTurn_reread g pre s⟩
  | cons turn rest =>
    rw [step_of_schedule_cons scheduled, step_of_schedule_cons (s := s.reread g pre) scheduled]
    cases turn with
    | loop => exact ⟨g, id, loopTurn_reread g pre (s.setSchedule rest)⟩
    | tick => exact ⟨g, id, tickTurn_reread g pre (s.setSchedule rest)⟩
    | host e => exact hostTurn_reread g pre (s.setSchedule rest) e

end Reread

/-- Settles O54: the step commutes with the change of LASTKEY, whatever it answers. -/
theorem lastKeyIsNotObservable : Obligations.LastKeyIsNotObservable := by
  unfold Obligations.LastKeyIsNotObservable
  intro s k
  obtain ⟨g', _, commutes⟩ := step_reread (fun _ => k) [] s
  have changed : s.reread (fun _ => k) [] = { s with lastKey := k } := rfl
  rw [changed] at commutes
  refine ⟨fun t stepped => ⟨g' t.lastKey, ?_⟩, fun f stepped => ?_, fun f stepped => ?_⟩
  all_goals
    rw [commutes, stepped]
    rfl

/-- A step from any trace is the step from the empty one, with that trace put before the events it appends. -/
theorem step_of_events (s : State) (old : List OutEvent) :
    step { s with events := old } = mapNext (State.reread id old) (step { s with events := [] }) := by
  obtain ⟨g', unchanged, commutes⟩ := step_reread id old { s with events := [] }
  have trace : State.reread id old { s with events := [] } = { s with events := old } := by
    simp only [State.reread, List.append_nil, id]
  rw [← trace, commutes, unchanged rfl]

/-- Settles O55: the events of the step from the empty trace are those that every trace gains. -/
theorem outputTraceIsOnlyAppendedTo : Obligations.OutputTraceIsOnlyAppendedTo := by
  unfold Obligations.OutputTraceIsOnlyAppendedTo
  intro s t stepped
  have fromEmpty := (step_of_events s s.events).symm.trans stepped
  cases empty : step { s with events := [] } with
  | next u =>
    rw [empty] at fromEmpty
    obtain rfl := Host.Outcome.next.inj fromEmpty
    refine ⟨u.events, rfl, fun old => ?_⟩
    rw [step_of_events, empty]
    rfl
  | fault f => exact nomatch empty ▸ fromEmpty
  | refused f => exact nomatch empty ▸ fromEmpty

end Sys2Proof.Machine
end
